-- ==== Sys2Proof/Word.lean ====
section
/-! DEFINITION. The word types of the spec's notation (00_scope.md R8): a byte, the 16-byte and 32-byte
strings identified with 128-bit and 256-bit values, and the `LEN_W` = 64 bit lengths (R7). -/

namespace Sys2Proof

/-- A byte is 8 bits (R8). -/
abbrev Byte := BitVec 8

/-- `W128`, identified with `Bytes(16)`: byte `i` is bits `8*i+7 .. 8*i` (R8). -/
abbrev W128 := BitVec 128

/-- `W256`, identified with `Bytes(32)`: byte `i` is bits `8*i+7 .. 8*i` (R8). -/
abbrev W256 := BitVec 256

/-- An unsigned length or position register, `LEN_W` = 64 bits (R7, R20). -/
abbrev Len := BitVec 64

end Sys2Proof
end

