-- ==== Sys2Proof/Config.lean ====
section
/-! DEFINITION. The constants an implementation fixes: the parameters of 00_scope.md R6 and R7, the
constants `Z0` and `Z1` (40_aes_round_and_round.md R116), and what a byte of an address space reads as
when nothing has put a value there. -/

namespace Sys2Proof.Config

/-- `BLOCK_BYTES` = 32: one AD or message block, two 16-byte halves (R6). -/
abbrev blockBytes : Nat := 32

/-- `TAG_BYTES` = 32 (R6). -/
abbrev tagBytes : Nat := 32

/-- `RND` of the last of the `INIT_ROUNDS` = `FINAL_ROUNDS` = 16 rounds (R6, R132, R172). -/
abbrev lastRound : BitVec 5 := 15#5

/-- `Z0`, the byte string cd65ef239144377122ae28d7982f8a42 with byte 0 first, as the number R116 gives.
The spec supplies it from general knowledge and checks it against the boundary vector (R121): log 13. -/
def z0 : W128 := 0x428a2f98d728ae227137449123ef65cd#128

/-- `Z1`, the byte string bcdb8981a5dbb5e92f3b4deccffbc0b5 with byte 0 first, as the number R116 gives
(log 13). -/
def z1 : W128 := 0xb5c0fbcfec4d3b2fe9b5dba58189dbbc#128

/-- What a byte that a space's list does not mention reads as. DESIGN CHOICE, unsafe: the spec leaves the
contents of the spaces at reset to the platform (R41, R61); log 3. -/
abbrev unlistedByte : Byte := 0x00#8

end Sys2Proof.Config
end

