-- ==== Sys2Proof/Syntax.lean ====
section
/-! DEFINITION. The syntax of rocca_s_aead_core: the nineteen rows of spec/opcode_table.json
(30_encoding.md R92, R93), and the host's moves, which are the host-script lines of R101 and the two
pseudo-instructions of R102. -/

namespace Sys2Proof

/-- One constructor per row of spec/opcode_table.json: the three commands (format `CMD`, R92), then the
sixteen micro-operations (format `UOP`, R93). No row has an operand field (R91, R93). -/
inductive Instr where
  | nop | enc | dec
  | idle | initLoad | initRound | initWhiten | adFull | adPart | encFull | encPart | decFull | decPart
  | finRound | tagDerive | tagWrite | tagVerify | outWipe | zeroize
deriving DecidableEq, Repr

/-- The two encodings (R90). -/
inductive Format where
  | cmd   -- 8 bits, written by the host to register 0
  | uop   -- 4 bits, the value of PHASE
deriving DecidableEq, Repr

/-- The three address spaces (R37). `inp` is the space `IN`. -/
inductive Space where
  | ad | inp | out
deriving DecidableEq, Repr

/-- The six host registers (R30). -/
inductive HostReg where
  | cmd | status | adlen | mlen | nonce | key
deriving DecidableEq, Repr

/-- The register numbers of R30. -/
def HostReg.number : HostReg → Nat
  | .cmd => 0
  | .status => 1
  | .adlen => 2
  | .mlen => 3
  | .nonce => 4
  | .key => 5

/-- A write of a whole host register: a register write replaces the whole register in one step (R30). -/
inductive RegWrite where
  | cmd (c : BitVec 8)
  | status (v : BitVec 8)
  | adlen (v : Len)
  | mlen (v : Len)
  | nonce (v : W128)
  | key (v : W256)
deriving DecidableEq, Repr

/-- The register a write goes to. -/
def RegWrite.reg : RegWrite → HostReg
  | .cmd _ => .cmd
  | .status _ => .status
  | .adlen _ => .adlen
  | .mlen _ => .mlen
  | .nonce _ => .nonce
  | .key _ => .key

/-- What a host read returns: a register value of its register's width (R30), or the bytes of a dump
(R101). -/
inductive HostRead where
  | byte (v : BitVec 8)
  | len (v : Len)
  | word (v : W128)
  | wide (v : W256)
  | bytes (bs : List Byte)
deriving DecidableEq, Repr

/-- One line of a host script: one host action, or a line that lets the core step (R101).
`CMD <mnemonic>` and `CMD 0x<hh>` are `wr (.cmd c)`: a command is one 8-bit write of register 0 (R91).
`FILL` and `DUMP` carry a start offset: the host may use accesses of any width (R69; log 10). -/
inductive HostLine where
  | wr (w : RegWrite)
  | rd (r : HostReg)
  | fill (sp : Space) (addr : Nat) (bs : List Byte)
  | wait
  | dump (addr n : Nat)
  | reset
  | core (n : Nat)
deriving DecidableEq, Repr

/-- The pseudo-instructions of R102. -/
inductive Pseudo where
  | encrypt (key : W256) (nonce : W128) (ad pt : List Byte)
  | decrypt (key : W256) (nonce : W128) (ad ctt : List Byte)
deriving DecidableEq, Repr

/-- The encodings of the micro-operations: the values of the 4-bit register `PHASE` (R93). -/
abbrev Phase := BitVec 4

abbrev Phase.idle : Phase := 0x0#4
abbrev Phase.initLoad : Phase := 0x1#4
abbrev Phase.initRound : Phase := 0x2#4
abbrev Phase.initWhiten : Phase := 0x3#4
abbrev Phase.adFull : Phase := 0x4#4
abbrev Phase.adPart : Phase := 0x5#4
abbrev Phase.encFull : Phase := 0x6#4
abbrev Phase.encPart : Phase := 0x7#4
abbrev Phase.decFull : Phase := 0x8#4
abbrev Phase.decPart : Phase := 0x9#4
abbrev Phase.finRound : Phase := 0xA#4
abbrev Phase.tagDerive : Phase := 0xB#4
abbrev Phase.tagWrite : Phase := 0xC#4
abbrev Phase.tagVerify : Phase := 0xD#4
abbrev Phase.outWipe : Phase := 0xE#4
abbrev Phase.zeroize : Phase := 0xF#4

end Sys2Proof
end

