-- ==== Sys2Proof/WellFormed.lean ====
section
/-! DEFINITION. Which terms of the syntax are well formed. An instruction has no operand field (R91, R93),
so every instruction is; what can be ill formed is a raw encoding that is wider than its format (R90) and a
pseudo-instruction whose lengths the wrapper refuses (R102, R224) or a 64-bit length register cannot hold
(R33, R34). -/

namespace Sys2Proof

/-- No row of the opcode table has an operand field (R91, R93): nothing is left to check. -/
abbrev Instr.wf (_ : Instr) : Bool := true

/-- A raw encoding: a format and the number written in it. -/
structure Encoding where
  format : Format
  bits : Nat
deriving DecidableEq, Repr

/-- The width of a format in bits (R90). -/
def Format.width : Format → Nat
  | .cmd => 8
  | .uop => 4

/-- The number fits the format's fixed width (R90). -/
def Encoding.wf (e : Encoding) : Bool := decide (e.bits < 2 ^ e.format.width)

/-- The lengths a pseudo-instruction writes to `ADLEN` and `MLEN` fit 64 bits (R33, R34), and an input of
`DECRYPT` has at least the 32 tag bytes: refusing a shorter one is the wrapper's duty (R102, R224). -/
def Pseudo.wf : Pseudo → Bool
  | .encrypt _ _ ad pt => decide (ad.length < 2 ^ 64) && decide (pt.length < 2 ^ 64)
  | .decrypt _ _ ad ctt =>
      decide (ad.length < 2 ^ 64) && decide (Config.tagBytes ≤ ctt.length) &&
        decide (ctt.length - Config.tagBytes < 2 ^ 64)

end Sys2Proof
end

