-- ==== Sys2Proof/Decode.lean ====
section
/-! DEFINITION. Decoding and encoding (30_encoding.md R90 to R95, R103). A `CMD` word is decoded when the
host writes it (R94); a `UOP` code is decoded from `PHASE` at every core step (R26, R93). Both decoders are
total; what the `CMD` decoder rejects, it rejects by name. -/

namespace Sys2Proof

/-- Why an encoding is no instruction. -/
inductive DecodeError where
  /-- `CMD` 0x03 .. 0x0F: `MBZ` is 0 and `OP` is unassigned (R95). The step raises `ILLEGAL_CMD`. -/
  | opUnassigned (op : BitVec 4)
  /-- `CMD` 0x10 .. 0xFF: `MBZ` is not 0 (R91, R95). The step raises `ILLEGAL_CMD`. -/
  | mbzNotZero (mbz : BitVec 4)
  /-- A number that does not fit its format's width (R90). No register of the machine can hold one. -/
  | tooWide
deriving DecidableEq, Repr

/-- The field `MBZ`, bits 7:4 of a command word (R91). -/
def cmdMbz (c : BitVec 8) : BitVec 4 := c.extractLsb' 4 4

/-- The field `OP`, bits 3:0 of a command word (R91). -/
def cmdOp (c : BitVec 8) : BitVec 4 := c.extractLsb' 0 4

/-- The command decoder of R94, by the fields of R91: the whole word is matched (R92). -/
def decodeCmd (c : BitVec 8) : Except DecodeError Instr :=
  if cmdMbz c = 0x0#4 then
    if cmdOp c = 0x0#4 then .ok .nop
    else if cmdOp c = 0x1#4 then .ok .enc
    else if cmdOp c = 0x2#4 then .ok .dec
    else .error (.opUnassigned (cmdOp c))
  else .error (.mbzNotZero (cmdMbz c))

/-- The micro-operation decoder of R93: every one of the sixteen values is defined. -/
def decodeUop (p : Phase) : Instr :=
  match p with
  | 0x0#4 => .idle
  | 0x1#4 => .initLoad
  | 0x2#4 => .initRound
  | 0x3#4 => .initWhiten
  | 0x4#4 => .adFull
  | 0x5#4 => .adPart
  | 0x6#4 => .encFull
  | 0x7#4 => .encPart
  | 0x8#4 => .decFull
  | 0x9#4 => .decPart
  | 0xA#4 => .finRound
  | 0xB#4 => .tagDerive
  | 0xC#4 => .tagWrite
  | 0xD#4 => .tagVerify
  | 0xE#4 => .outWipe
  | _ => .zeroize

/-- The decoder over both formats: total on any number. -/
def decode (e : Encoding) : Except DecodeError Instr :=
  match e.format with
  | .cmd => if e.bits < 256 then decodeCmd (BitVec.ofNat 8 e.bits) else .error .tooWide
  | .uop => if e.bits < 16 then .ok (decodeUop (BitVec.ofNat 4 e.bits)) else .error .tooWide

/-- The encoder, from the tables of R92 and R93. -/
def encode : Instr → Encoding
  | .nop => ⟨.cmd, 0x00⟩
  | .enc => ⟨.cmd, 0x01⟩
  | .dec => ⟨.cmd, 0x02⟩
  | .idle => ⟨.uop, 0x0⟩
  | .initLoad => ⟨.uop, 0x1⟩
  | .initRound => ⟨.uop, 0x2⟩
  | .initWhiten => ⟨.uop, 0x3⟩
  | .adFull => ⟨.uop, 0x4⟩
  | .adPart => ⟨.uop, 0x5⟩
  | .encFull => ⟨.uop, 0x6⟩
  | .encPart => ⟨.uop, 0x7⟩
  | .decFull => ⟨.uop, 0x8⟩
  | .decPart => ⟨.uop, 0x9⟩
  | .finRound => ⟨.uop, 0xA⟩
  | .tagDerive => ⟨.uop, 0xB⟩
  | .tagWrite => ⟨.uop, 0xC⟩
  | .tagVerify => ⟨.uop, 0xD⟩
  | .outWipe => ⟨.uop, 0xE⟩
  | .zeroize => ⟨.uop, 0xF⟩

/-- Which format a table word is in. The table's two formats share their numbers, and a word given in
whole bytes does not say which format it is in: a 4-bit word is a `UOP` code; an 8-bit word is a `CMD` word
where one of the three `CMD` rows matches it, else a `UOP` code held in one byte where it fits 4 bits, else
a `CMD` word. DESIGN CHOICE of the host's test interface only: `step` decodes a `CMD` write by `decodeCmd`
and `PHASE` by `decodeUop`, and never by this (log 11). -/
def tableFormat (nbits w : Nat) : Option Format :=
  if nbits = 4 then some .uop
  else if nbits = 8 then
    if w < 3 then some .cmd else if w < 16 then some .uop else some .cmd
  else none

/-- The instruction the decoder reads from a word of spec/opcode_table.json (log 11). -/
def decodeTableWord (nbits w : Nat) : Option Instr :=
  match tableFormat nbits w with
  | some f => (decode ⟨f, w⟩).toOption
  | none => none

end Sys2Proof
end

