-- ==== Sys2Proof/Machine/State.lean ====
section
/-! DEFINITION. The state of one core instance (10_state.md R20, R37), the host agent held as data, the
faults and refusals, and the state after reset (R41). -/

namespace Sys2Proof.Machine

/-- The seven state words `S[0]` .. `S[6]`, 128 bits each (R21). -/
structure CipherState where
  s0 : W128
  s1 : W128
  s2 : W128
  s3 : W128
  s4 : W128
  s5 : W128
  s6 : W128
deriving DecidableEq, Repr

/-- `S[0]` .. `S[6]` all `zeros(16)` (R41, R205). -/
def CipherState.zero : CipherState := ⟨0#128, 0#128, 0#128, 0#128, 0#128, 0#128, 0#128⟩

/-- One address space: the bytes that differ from what an unlisted byte reads as, addresses strictly
rising. Offsets are natural numbers starting at 0 (R37). -/
abbrev Memory := List Host.Cell

/-- The canonical form of a space: addresses strictly rising, and no entry equal to what an unlisted
address reads as. -/
abbrev Memory.wf (m : Memory) : Prop :=
  m.Pairwise (fun c d => c.1 < d.1) ∧ ∀ c ∈ m, c.2 ≠ Config.unlistedByte

/-- The state of one core instance (R20) with its three address spaces (R37), and the host agent's next
moves and last read as data (log 1, log 4). -/
structure State where
  /-- `S[0]` .. `S[6]`, secret datapath (R21). -/
  S : CipherState
  /-- `W`, the 32-byte working buffer of the partial-block padder (R24). -/
  W : W256
  /-- `T`, the 32-byte computed tag (R25). -/
  T : W256
  /-- `PHASE`, the sequencer's program counter (R26). -/
  phase : Phase
  /-- `RND`, the rounds done in INIT_ROUND or FIN_ROUND (R27). -/
  rnd : BitVec 5
  /-- `ADPOS` (R28). -/
  adpos : Len
  /-- `MPOS` (R28). -/
  mpos : Len
  /-- `FAIL`, the verdict of TAG_VERIFY (R29). -/
  fail : Bool
  /-- `KEY`, host register 5 (R31). -/
  key : W256
  /-- `NONCE`, host register 4 (R32). -/
  nonce : W128
  /-- `ADLEN`, host register 2 (R33). -/
  adlen : Len
  /-- `MLEN`, host register 3 (R34). -/
  mlen : Len
  /-- `STATUS.DONE` (R35). `STATUS` is these three fields, with `BUSY` computed from the phase (DEDUCED, log 14). -/
  done : Bool
  /-- `STATUS.ERR` (R35). -/
  err : BitVec 2
  /-- `STATUS.DIR`, false for ENC and true for DEC (R35). -/
  dir : Bool
  /-- The space `AD` (R37). -/
  ad : Memory
  /-- The space `IN` (R37). -/
  inp : Memory
  /-- The space `OUT` (R37). -/
  out : Memory
  /-- The MODEL's own field: the host's next moves, first line first (log 1). -/
  script : List HostLine
  /-- The MODEL's own field: what the host's last read returned (log 4). -/
  readData : Option HostRead
deriving DecidableEq, Repr

/-- Reasons the machine stops. No rule of the spec lets the core stop (R63, R223): both reasons lie in
states that R27, R28 and R166 exclude. -/
inductive Fault where
  /-- Raised by INIT_ROUND and FIN_ROUND when `RND` is 31, and by AD_FULL, ENC_FULL and DEC_FULL when the
  position plus 32 is 2^64 or more: the new counter value has no place in its register. The spec gives no
  effect there, since `RND` is at most 15 (R27) and a position never exceeds its length (R28). Safe. -/
  | counterOverflow
  /-- Raised by AD_PART, ENC_PART and DEC_PART when the remaining length is negative or above 32: then
  `MemRead` and `zeros(32 - n)` have no meaning (R64, R9), and R28, R161 and R166 exclude the state. Safe. -/
  | remainderOutOfRange
deriving DecidableEq, Repr

/-- Reasons the model gives no meaning to a step. -/
inductive Refusal where
  /-- Raised by exec for an instruction that has no meaning yet; no arm raises it now. Safe. -/
  | notModelled (mnemonic : String)
  /-- Raised when the host's next line fills or dumps a space while `STATUS.BUSY` = 1: the space belongs to
  the core (R74, R257) and a model gives the host no such move (93_implementation_defined.md U1). Safe. -/
  | spaceOwnedByCore
deriving DecidableEq, Repr

/-- The state right after reset (R41, R250). The spaces list nothing: their contents are the platform's
(log 3). The host has no further line (log 1) and has read nothing (log 4). -/
def State.reset : State where
  S := CipherState.zero
  W := 0#256
  T := 0#256
  phase := Phase.idle
  rnd := 0#5
  adpos := 0#64
  mpos := 0#64
  fail := false
  key := 0#256
  nonce := 0#128
  adlen := 0#64
  mlen := 0#64
  done := false
  err := 0#2
  dir := false
  ad := []
  inp := []
  out := []
  script := []
  readData := none

end Sys2Proof.Machine
end

