-- ==== Sys2Proof/Machine/Operands.lean ====
section
/-! DEFINITION. How operands are assembled: the byte strings of 00_scope.md R8 and R9, block halves and
zero padding (30_encoding.md R98), encoded lengths (R99) and key halves (R100). -/

namespace Sys2Proof.Machine

/-- `byte(v, i) = v[8*i+7 : 8*i]` (R8, R9). -/
def byteAt {n : Nat} (v : BitVec n) (i : Nat) : Byte := v.extractLsb' (8 * i) 8

/-- The `n`-bit value whose byte `i` is byte `i` of the string, missing bytes being 0x00 (R8). -/
def ofBytes (n : Nat) : List Byte → BitVec n
  | [] => 0#n
  | b :: bs => b.setWidth n ||| (ofBytes n bs <<< 8)

/-- The first `k` bytes of a value, byte 0 first: `sub(v, 0, k)` (R8, R9). -/
def toBytes {n : Nat} (v : BitVec n) (k : Nat) : List Byte := (List.range k).map (byteAt v)

/-- `pad32(b) = b || zeros(32 - n)`, right-padded with zero bytes (R9, R98). -/
def pad32 (b : List Byte) : List Byte := b ++ List.replicate (Config.blockBytes - b.length) 0x00#8

/-- A block of at most 32 bytes as a 256-bit value, zero-padded on the right (R98). -/
def block (b : List Byte) : W256 := ofBytes 256 (pad32 b)

/-- `lo(w) = sub(w, 0, 16)`, the first 16-byte half (R9). -/
def lo (w : W256) : W128 := w.extractLsb' 0 128

/-- `hi(w) = sub(w, 16, 16)`, the second 16-byte half (R9). -/
def hi (w : W256) : W128 := w.extractLsb' 128 128

/-- `a || b`: the bytes of `a` at the lower indices (R9). -/
def cat (a b : W128) : W256 := b ++ a

/-- `sub(w, 0, n) || zeros(32 - n)`: keep `n` bytes and zero the remainder (R164). -/
def keepBytes (w : W256) (n : Nat) : W256 := block (toBytes w n)

/-- `le128(x)`: as a 128-bit value it is the number itself (R9). -/
def le128 (x : Nat) : W128 := BitVec.ofNat 128 x

/-- An encoded length, the bit count `8 * L` computed on natural numbers (R68, R99). -/
def lengthWord (l : Len) : W128 := le128 (8 * l.toNat)

/-- `K0 = sub(KEY, 0, 16)`, "(low)" (R31, R100). -/
def k0 (key : W256) : W128 := lo key

/-- `K1 = sub(KEY, 16, 16)`, "(high)" (R31, R100). -/
def k1 (key : W256) : W128 := hi key

/-- The operand of a partial block: `n = len - pos` (R144, R162, R164), where that is a length `MemRead` and
`pad32` have a meaning for, 0 to 32 (R64, R9); none in a state that R28 and R166 exclude (log 7). -/
def remainder (len pos : Len) : Option Nat :=
  if pos.toNat ≤ len.toNat ∧ len.toNat - pos.toNat ≤ Config.blockBytes then some (len.toNat - pos.toNat)
  else none

/-- The position after a full block, `pos + 32` on natural numbers (R10, R117); none where the 64-bit
register has no place for it, in a state that R28 excludes (log 6). -/
def nextPosition (pos : Len) : Option Len :=
  if pos.toNat + Config.blockBytes < 2 ^ 64 then some (BitVec.ofNat 64 (pos.toNat + Config.blockBytes))
  else none

/-- `RND + 1` on natural numbers (R117); none where the 5-bit register has no place for it, in a state
that R27 excludes (log 6). -/
def nextRound (rnd : BitVec 5) : Option (BitVec 5) :=
  if rnd.toNat + 1 < 2 ^ 5 then some (BitVec.ofNat 5 (rnd.toNat + 1)) else none

end Sys2Proof.Machine
end

