-- ==== Sys2Proof/Machine/AesRound.lean ====
section
/-! DEFINITION. The pure functions every micro-operation is built from: `AesRound` (40_aes_round_and_round.md
R110 to R115), `Round` (R118), the keystream (43_block_encrypt_decrypt.md R150), the tag fold (R174) and the
tag comparison (46_tag_verification.md R181). -/

namespace Sys2Proof.Machine

/-- The S-box table of R112: row `R`, column `C` is `SBOX[0xRC]`. -/
def sboxRows : List (List Nat) :=
  [[0x63, 0x7c, 0x77, 0x7b, 0xf2, 0x6b, 0x6f, 0xc5, 0x30, 0x01, 0x67, 0x2b, 0xfe, 0xd7, 0xab, 0x76],
   [0xca, 0x82, 0xc9, 0x7d, 0xfa, 0x59, 0x47, 0xf0, 0xad, 0xd4, 0xa2, 0xaf, 0x9c, 0xa4, 0x72, 0xc0],
   [0xb7, 0xfd, 0x93, 0x26, 0x36, 0x3f, 0xf7, 0xcc, 0x34, 0xa5, 0xe5, 0xf1, 0x71, 0xd8, 0x31, 0x15],
   [0x04, 0xc7, 0x23, 0xc3, 0x18, 0x96, 0x05, 0x9a, 0x07, 0x12, 0x80, 0xe2, 0xeb, 0x27, 0xb2, 0x75],
   [0x09, 0x83, 0x2c, 0x1a, 0x1b, 0x6e, 0x5a, 0xa0, 0x52, 0x3b, 0xd6, 0xb3, 0x29, 0xe3, 0x2f, 0x84],
   [0x53, 0xd1, 0x00, 0xed, 0x20, 0xfc, 0xb1, 0x5b, 0x6a, 0xcb, 0xbe, 0x39, 0x4a, 0x4c, 0x58, 0xcf],
   [0xd0, 0xef, 0xaa, 0xfb, 0x43, 0x4d, 0x33, 0x85, 0x45, 0xf9, 0x02, 0x7f, 0x50, 0x3c, 0x9f, 0xa8],
   [0x51, 0xa3, 0x40, 0x8f, 0x92, 0x9d, 0x38, 0xf5, 0xbc, 0xb6, 0xda, 0x21, 0x10, 0xff, 0xf3, 0xd2]]
  ++
  [[0xcd, 0x0c, 0x13, 0xec, 0x5f, 0x97, 0x44, 0x17, 0xc4, 0xa7, 0x7e, 0x3d, 0x64, 0x5d, 0x19, 0x73],
   [0x60, 0x81, 0x4f, 0xdc, 0x22, 0x2a, 0x90, 0x88, 0x46, 0xee, 0xb8, 0x14, 0xde, 0x5e, 0x0b, 0xdb],
   [0xe0, 0x32, 0x3a, 0x0a, 0x49, 0x06, 0x24, 0x5c, 0xc2, 0xd3, 0xac, 0x62, 0x91, 0x95, 0xe4, 0x79],
   [0xe7, 0xc8, 0x37, 0x6d, 0x8d, 0xd5, 0x4e, 0xa9, 0x6c, 0x56, 0xf4, 0xea, 0x65, 0x7a, 0xae, 0x08],
   [0xba, 0x78, 0x25, 0x2e, 0x1c, 0xa6, 0xb4, 0xc6, 0xe8, 0xdd, 0x74, 0x1f, 0x4b, 0xbd, 0x8b, 0x8a],
   [0x70, 0x3e, 0xb5, 0x66, 0x48, 0x03, 0xf6, 0x0e, 0x61, 0x35, 0x57, 0xb9, 0x86, 0xc1, 0x1d, 0x9e],
   [0xe1, 0xf8, 0x98, 0x11, 0x69, 0xd9, 0x8e, 0x94, 0x9b, 0x1e, 0x87, 0xe9, 0xce, 0x55, 0x28, 0xdf],
   [0x8c, 0xa1, 0x89, 0x0d, 0xbf, 0xe6, 0x42, 0x68, 0x41, 0x99, 0x2d, 0x0f, 0xb0, 0x54, 0xbb, 0x16]]

/-- `SBOX[a]`, read from the table of R112. The formula of R112, the definition in case
of doubt (R121), is `sboxFormula` below; the two are to agree on all 256 values. -/
def sbox (a : Byte) : Byte :=
  BitVec.ofNat 8 ((sboxRows.getD (a.toNat / 16) []).getD (a.toNat % 16) 0)

/-- `xt(a)`, multiplication by x in GF(2^8) modulo x^8 + x^4 + x^3 + x + 1 (R115). -/
def xt (a : Byte) : Byte := (a <<< 1) ^^^ (if a.getLsbD 7 then 0x1b#8 else 0x00#8)

/-- `2*a` (R115). -/
def mul2 (a : Byte) : Byte := xt a

/-- `3*a` (R115). -/
def mul3 (a : Byte) : Byte := xt a ^^^ a

/-- Multiplication in GF(2^8), by the lowest `k` bits of `b` (R115): the sum of `a * x^i` over its set bits. -/
def gmulBits (a b : Byte) : Nat → Byte
  | 0 => 0x00#8
  | k + 1 => (if b.getLsbD 0 then a else 0x00#8) ^^^ gmulBits (xt a) (b >>> 1) k

/-- Multiplication in GF(2^8) (R115). -/
def gmul (a b : Byte) : Byte := gmulBits a b 8

/-- R112's affine map `A(b) = b xor rotl8(b,1) xor rotl8(b,2) xor rotl8(b,3) xor rotl8(b,4) xor 0x63`. -/
def affine (b : Byte) : Byte :=
  b ^^^ b.rotateLeft 1 ^^^ b.rotateLeft 2 ^^^ b.rotateLeft 3 ^^^ b.rotateLeft 4 ^^^ 0x63#8

/-- `inv(a)`, the multiplicative inverse in GF(2^8) with `inv(0) = 0` (R112): `a^254`, the product of
`a^2, a^4, .., a^128`, since every non-zero `a` has `a^255 = 1`. -/
def ginv (a : Byte) : Byte :=
  let a2 := gmul a a
  let a4 := gmul a2 a2
  let a8 := gmul a4 a4
  let a16 := gmul a8 a8
  let a32 := gmul a16 a16
  let a64 := gmul a32 a32
  let a128 := gmul a64 a64
  gmul a2 (gmul a4 (gmul a8 (gmul a16 (gmul a32 (gmul a64 a128)))))

/-- R112's formula `SBOX[a] = A(inv(a))`, the definition in case of doubt (R121). -/
def sboxFormula (a : Byte) : Byte := affine (ginv a)

/-- `SubBytes(block)`: each byte is replaced independently (R112). -/
def subBytes (b : W128) : W128 := ofBytes 128 ((toBytes b 16).map sbox)

/-- The index table `SR` of R114. -/
def shiftRowsIndex : List Nat := [0, 5, 10, 15, 4, 9, 14, 3, 8, 13, 2, 7, 12, 1, 6, 11]

/-- `ShiftRows(block)`: `byte(out, i) = byte(in, SR[i])` (R114). -/
def shiftRows (b : W128) : W128 := ofBytes 128 (shiftRowsIndex.map (byteAt b))

/-- One column of `MixColumns` (R115). -/
def mixColumn (a0 a1 a2 a3 : Byte) : List Byte :=
  [mul2 a0 ^^^ mul3 a1 ^^^ a2 ^^^ a3,
   a0 ^^^ mul2 a1 ^^^ mul3 a2 ^^^ a3,
   a0 ^^^ a1 ^^^ mul2 a2 ^^^ mul3 a3,
   mul3 a0 ^^^ a1 ^^^ a2 ^^^ mul2 a3]

/-- Column `c` of the byte matrix of R111, bytes `4*c .. 4*c + 3`, after `MixColumns`. -/
def mixColumnAt (b : W128) (c : Nat) : List Byte :=
  mixColumn (byteAt b (4 * c)) (byteAt b (4 * c + 1)) (byteAt b (4 * c + 2)) (byteAt b (4 * c + 3))

/-- `MixColumns(block)`: the four columns are independent (R115). -/
def mixColumns (b : W128) : W128 :=
  ofBytes 128 (mixColumnAt b 0 ++ mixColumnAt b 1 ++ mixColumnAt b 2 ++ mixColumnAt b 3)

/-- `AesRound(block, rk) = MixColumns(ShiftRows(SubBytes(block))) xor rk` (R110). -/
def aesRound (b rk : W128) : W128 := mixColumns (shiftRows (subBytes b)) ^^^ rk

/-- `Round(S, X0, X1)`: all seven new words from the old ones (R118). -/
def round (s : CipherState) (x0 x1 : W128) : CipherState where
  s0 := s.s6 ^^^ s.s1
  s1 := aesRound s.s0 0#128 ^^^ x0
  s2 := aesRound s.s1 0#128 ^^^ s.s0
  s3 := aesRound s.s2 0#128 ^^^ s.s6
  s4 := aesRound s.s3 0#128 ^^^ x1
  s5 := aesRound s.s4 0#128 ^^^ s.s3
  s6 := aesRound s.s5 0#128 ^^^ s.s4

/-- `Round` applied with the two halves of a block: `X0 = lo(B)`, `X1 = hi(B)` (R98). -/
def absorbBlock (s : CipherState) (b : W256) : CipherState := round s (lo b) (hi b)

/-- The state INIT_LOAD loads from key and nonce (R130, R131). -/
def loadState (key : W256) (nonce : W128) : CipherState where
  s0 := k1 key
  s1 := nonce
  s2 := Config.z0
  s3 := k0 key
  s4 := Config.z1
  s5 := nonce ^^^ k1 key
  s6 := 0#128

/-- The whitening of INIT_WHITEN: the pattern K0, K0, K1, K0, K0, K1, K1 (R100, R133). -/
def whiten (s : CipherState) (key : W256) : CipherState where
  s0 := s.s0 ^^^ k0 key
  s1 := s.s1 ^^^ k0 key
  s2 := s.s2 ^^^ k1 key
  s3 := s.s3 ^^^ k0 key
  s4 := s.s4 ^^^ k0 key
  s5 := s.s5 ^^^ k1 key
  s6 := s.s6 ^^^ k1 key

/-- `KS0(S)` (R150). -/
def ks0 (s : CipherState) : W128 := aesRound (s.s3 ^^^ s.s5) 0#128 ^^^ s.s0

/-- `KS1(S)` (R150). -/
def ks1 (s : CipherState) : W128 := aesRound (s.s4 ^^^ s.s6) 0#128 ^^^ s.s2

/-- `KS(S) = KS0(S) || KS1(S)`, the keystream block (R150). -/
def ks (s : CipherState) : W256 := cat (ks0 s) (ks1 s)

/-- A block XORed half by half with the keystream of the state before the step (R152, R154, R162, R164). -/
def cipherBlock (s : CipherState) (b : W256) : W256 := cat (ks0 s ^^^ lo b) (ks1 s ^^^ hi b)

/-- The tag fold: four words, then three (R174). -/
def foldTag (s : CipherState) : W256 :=
  cat (s.s0 ^^^ s.s1 ^^^ s.s2 ^^^ s.s3) (s.s4 ^^^ s.s5 ^^^ s.s6)

/-- `diff(a, b)`: the OR of the XORs of all 32 byte pairs, no early exit (R181). -/
def tagDiff (a b : W256) : Byte :=
  (List.range Config.tagBytes).foldl (fun acc i => acc ||| (byteAt a i ^^^ byteAt b i)) 0x00#8

/-- `equal32(a, b) = (diff(a, b) = 0x00)` (R181). -/
def equal32 (a b : W256) : Bool := tagDiff a b == 0x00#8

end Sys2Proof.Machine
end

