-- ==== Sys2Proof/Machine/Flags.lean ====
section
/-! DEFINITION. The flags: the view of `STATUS` (10_state.md R35), its error codes (60_exceptions.md R220)
and the verdict carried by `FAIL` (R29, R205). -/

namespace Sys2Proof.Machine

/-- `STATUS.BUSY` reads 1 if and only if `PHASE != IDLE`; it is not separate storage (R35). -/
def busy (s : State) : Bool := s.phase != Phase.idle

/-- One bit as a `BitVec 1`. -/
def bit (b : Bool) : BitVec 1 := if b then 1#1 else 0#1

/-- What register 1 reads: bits 7:5 zero, `DIR`, `ERR`, `DONE`, `BUSY` (R35). -/
def status (s : State) : BitVec 8 := 0#3 ++ bit s.dir ++ s.err ++ bit s.done ++ bit (busy s)

/-- The two conditions the core raises (R220). -/
inductive Condition where
  | authFail      -- code 1, R221
  | illegalCmd    -- code 2, R222
deriving DecidableEq, Repr

/-- `STATUS.ERR` codes: 0 none, 1 `AUTH_FAIL`, 2 `ILLEGAL_CMD`; 3 is never produced (R220). -/
def Condition.code : Condition → BitVec 2
  | .authFail => 1#2
  | .illegalCmd => 2#2

/-- What ZEROIZE writes to `ERR`: 1 if `FAIL` = 1, else 0 (R205). -/
def outcomeCode (fail : Bool) : BitVec 2 := if fail then Condition.authFail.code else 0#2

end Sys2Proof.Machine
end

