-- ==== Sys2Proof/Machine/Ops.lean ====
section
/-! DEFINITION. The named operations on memory and registers: `MemRead` and `MemWrite` (20_memory.md R64, R65),
raising a condition (60_exceptions.md R221, R222), accepting a command (47_commands_and_sequencer.md R192,
R193), the two dispatch functions (R196, R197), the counted round loop (R132, R172), host register access
(10_state.md R30, R36) and the reset event (70_reset_and_hazards.md R250). -/

namespace Sys2Proof.Machine

/-- One byte of a space. -/
def Memory.get : Memory → Nat → Byte
  | [], _ => Config.unlistedByte
  | c :: m, a => if a < c.1 then Config.unlistedByte else if a = c.1 then c.2 else Memory.get m a

/-- Put an entry before a list, unless it says what an unlisted byte reads as. -/
def Memory.entry (a : Nat) (v : Byte) (m : Memory) : Memory :=
  if v = Config.unlistedByte then m else (a, v) :: m

/-- Store one byte, keeping the canonical form. -/
def Memory.set : Memory → Nat → Byte → Memory
  | [], a, v => Memory.entry a v []
  | c :: m, a, v =>
    if a < c.1 then Memory.entry a v (c :: m)
    else if a = c.1 then Memory.entry a v m
    else c :: Memory.set m a v

/-- `MemRead(sp, addr, n)`: the bytes at `addr .. addr+n-1`, lowest offset first (R64). -/
def Memory.read (m : Memory) (addr n : Nat) : List Byte := (List.range n).map (fun i => m.get (addr + i))

/-- `MemWrite(sp, addr, n, v)`: `v[i]` at `addr + i`, no other byte changes (R65). -/
def Memory.write (m : Memory) (addr : Nat) : List Byte → Memory
  | [] => m
  | b :: bs => Memory.write (m.set addr b) (addr + 1) bs

/-- `for i in 0 .. n-1: MemWrite(OUT, i, 1, 0x00)` (R184): the entries below `n` go, so that those bytes
read as an unlisted byte does, 0x00. `Memory.wipe_eq_wipeLoop` proves that this is the loop of byte writes
`Memory.wipeLoop` (DEDUCED, log 16). -/
def Memory.wipe (m : Memory) (n : Nat) : Memory := m.filter (fun c => decide (n ≤ c.1))

/-- The loop of R184, one byte write for each `i` from 0 up. -/
def Memory.wipeLoop (m : Memory) : Nat → Memory
  | 0 => m
  | n + 1 => (Memory.wipeLoop m n).set n 0x00#8

/-- The bytes of a space (R37). -/
def State.space (s : State) : Space → Memory
  | .ad => s.ad
  | .inp => s.inp
  | .out => s.out

/-- Put bytes into a space; only the host does so for `AD` and `IN` (R37). -/
def State.storeBytes (s : State) (sp : Space) (addr : Nat) (bs : List Byte) : State :=
  match sp with
  | .ad => { s with ad := s.ad.write addr bs }
  | .inp => { s with inp := s.inp.write addr bs }
  | .out => { s with out := s.out.write addr bs }

/-- `raise`: `AUTH_FAIL` is exactly `FAIL <- 1` and `PHASE <- OUT_WIPE` (R221, R231); `ILLEGAL_CMD` is
exactly `STATUS.ERR <- 2` and `STATUS.DONE <- 0` (R222, R232). Nothing is saved and no vector is taken; there
is no return instruction (R233). -/
def raise (c : Condition) (s : State) : State :=
  match c with
  | .authFail => { s with fail := true, phase := Phase.outWipe }
  | .illegalCmd => { s with err := c.code, done := false }

/-- The acceptance step of ENC (`dir` false, R192) and DEC (`dir` true, R193) while `BUSY` = 0, which also
clears the code of an earlier condition (R233); while `BUSY` = 1 a command is ignored (R195). -/
def acceptCommand (dir : Bool) (s : State) : State :=
  if busy s then s
  else { s with dir := dir, done := false, err := 0#2, phase := Phase.initLoad }

/-- `msg_dispatch()` with the values `MPOS`, `MLEN`, `DIR` hold at the end of the step (R197). -/
def msgDispatch (dir : Bool) (mlen mpos : Len) : Phase :=
  if Config.blockBytes ≤ mlen.toNat - mpos.toNat then (if dir then Phase.decFull else Phase.encFull)
  else if 1 ≤ mlen.toNat - mpos.toNat then (if dir then Phase.decPart else Phase.encPart)
  else Phase.finRound

/-- `ad_dispatch()` with the values the registers hold at the end of the step (R196). -/
def adDispatch (dir : Bool) (adlen adpos mlen mpos : Len) : Phase :=
  if Config.blockBytes ≤ adlen.toNat - adpos.toNat then Phase.adFull
  else if 1 ≤ adlen.toNat - adpos.toNat then Phase.adPart
  else msgDispatch dir mlen mpos

/-- One step of a counted round loop: apply `Round`, then count; after the round with `RND` = 15 go on to
the phase `exit` with `RND` = 0, else stay in the loop (R132, R172). -/
def roundLoop (x0 x1 : W128) (stay exit : Phase) (s : State) : Host.Outcome State Fault Refusal :=
  if s.rnd = Config.lastRound then
    .next { s with S := round s.S x0 x1, rnd := 0#5, phase := exit }
  else
    match nextRound s.rnd with
    | some r => .next { s with S := round s.S x0 x1, rnd := r, phase := stay }
    | none => .fault .counterOverflow

/-- The register write of R30 while `BUSY` = 0: the whole register is replaced. A `STATUS` write is
ignored. A `CMD` write stores nothing: it is an event, which `fetch` decodes. -/
def writeReg (w : RegWrite) (s : State) : State :=
  match w with
  | .cmd _ => s
  | .status _ => s
  | .adlen v => { s with adlen := v }
  | .mlen v => { s with mlen := v }
  | .nonce v => { s with nonce := v }
  | .key v => { s with key := v }

/-- What a host read of a register returns: the whole register; `CMD` reads 0x00 and `KEY` reads
`zeros(32)` (R30, R228). -/
def readReg (r : HostReg) (s : State) : HostRead :=
  match r with
  | .cmd => .byte 0x00#8
  | .status => .byte (status s)
  | .adlen => .len s.adlen
  | .mlen => .len s.mlen
  | .nonce => .word s.nonce
  | .key => .wide 0#256

/-- The reset event: every register takes its value of R41; the three spaces are not touched, and nothing
starts running (R250). The host and what it has read are outside the core. -/
def resetEvent (s : State) : State :=
  { State.reset with ad := s.ad, inp := s.inp, out := s.out, script := s.script, readData := s.readData }

end Sys2Proof.Machine
end

