-- ==== Sys2Proof/Machine/AdAbsorption.lean ====
section
/-! DEFINITION. ad_absorption_engine: AD_FULL and AD_PART (42_ad_absorption.md R140 to R145).
Outside the precondition that the dispatch establishes the pseudocode runs as written (DESIGN CHOICE, unsafe, log 5). -/

namespace Sys2Proof.Machine

/-- AD_FULL: absorb the 32 bytes at `ADPOS`, advance, then `ad_dispatch()` with the new `ADPOS` (R142). -/
def execAdFull (s : State) : Host.Outcome State Fault Refusal :=
  match nextPosition s.adpos with
  | some p =>
    .next { s with
      S := absorbBlock s.S (block (s.ad.read s.adpos.toNat Config.blockBytes)), adpos := p,
      phase := adDispatch s.dir s.adlen p s.mlen s.mpos }
  | none => .fault .counterOverflow

/-- AD_PART: absorb the trailing bytes, zero-padded, keep the padded block in `W`, then `msg_dispatch()`
(R144). -/
def execAdPart (s : State) : Host.Outcome State Fault Refusal :=
  match remainder s.adlen s.adpos with
  | some n =>
    let wn := block (s.ad.read s.adpos.toNat n)
    .next { s with
      S := absorbBlock s.S wn, W := wn, adpos := s.adlen, phase := msgDispatch s.dir s.mlen s.mpos }
  | none => .fault .remainderOutOfRange

end Sys2Proof.Machine
end

