-- ==== Sys2Proof/Machine/BlockCipher.lean ====
section
/-! DEFINITION. block_encrypt_decrypt_engine: ENC_FULL and DEC_FULL (43_block_encrypt_decrypt.md R150 to R156).
The keystream is taken from the state before the `Round` of the same step, and the `Round` is fed the
plaintext on both paths (R151).
Outside the precondition that the dispatch establishes the pseudocode runs as written (DESIGN CHOICE, unsafe, log 5). -/

namespace Sys2Proof.Machine

/-- ENC_FULL: encrypt the 32 plaintext bytes at `MPOS` (R152). -/
def execEncFull (s : State) : Host.Outcome State Fault Refusal :=
  match nextPosition s.mpos with
  | some p =>
    let m := block (s.inp.read s.mpos.toNat Config.blockBytes)
    .next { s with
      out := s.out.write s.mpos.toNat (toBytes (cipherBlock s.S m) Config.blockBytes),
      S := absorbBlock s.S m, mpos := p, phase := msgDispatch s.dir s.mlen p }
  | none => .fault .counterOverflow

/-- DEC_FULL: decrypt the 32 ciphertext bytes at `MPOS`; the plaintext goes to `OUT` unverified (R154). -/
def execDecFull (s : State) : Host.Outcome State Fault Refusal :=
  match nextPosition s.mpos with
  | some p =>
    let m := cipherBlock s.S (block (s.inp.read s.mpos.toNat Config.blockBytes))
    .next { s with
      out := s.out.write s.mpos.toNat (toBytes m Config.blockBytes),
      S := absorbBlock s.S m, mpos := p, phase := msgDispatch s.dir s.mlen p }
  | none => .fault .counterOverflow

end Sys2Proof.Machine
end

