-- ==== Sys2Proof/Machine/Commands.lean ====
section
/-! DEFINITION. The three host commands (47_commands_and_sequencer.md R191 to R195). An illegal command word is
no instruction: the step raises `ILLEGAL_CMD` for it (Machine/HostPort.lean). -/

namespace Sys2Proof.Machine

/-- NOP: no register, no flag and no memory changes, with `BUSY` = 0 and with `BUSY` = 1 (R191). -/
def execNop (s : State) : Host.Outcome State Fault Refusal := .next s

/-- ENC: the acceptance step with direction 0; ignored while `BUSY` = 1 (R192, R195). -/
def execEnc (s : State) : Host.Outcome State Fault Refusal := .next (acceptCommand false s)

/-- DEC: the acceptance step with direction 1; ignored while `BUSY` = 1 (R193, R195). -/
def execDec (s : State) : Host.Outcome State Fault Refusal := .next (acceptCommand true s)

end Sys2Proof.Machine
end

