-- ==== Sys2Proof/Machine/Finalization.lean ====
section
/-! DEFINITION. finalization_16rounds: FIN_ROUND, TAG_DERIVE, TAG_WRITE (45_finalization.md R170 to R176). -/

namespace Sys2Proof.Machine

/-- FIN_ROUND: one round with the encoded bit lengths; the one with `RND` = 15 is the last (R172). -/
def execFinRound (s : State) : Host.Outcome State Fault Refusal :=
  roundLoop (lengthWord s.adlen) (lengthWord s.mlen) Phase.finRound Phase.tagDerive s

/-- TAG_DERIVE: fold the state into `T`; the paths part by `DIR` (R174). -/
def execTagDerive (s : State) : Host.Outcome State Fault Refusal :=
  .next { s with T := foldTag s.S, phase := if s.dir then Phase.tagVerify else Phase.tagWrite }

/-- TAG_WRITE: append the tag to the ciphertext, at `OUT[MLEN .. MLEN+31]` (R176). -/
def execTagWrite (s : State) : Host.Outcome State Fault Refusal :=
  .next { s with
    out := s.out.write s.mlen.toNat (toBytes s.T Config.tagBytes), phase := Phase.zeroize }

end Sys2Proof.Machine
end

