-- ==== Sys2Proof/Machine/Initialization.lean ====
section
/-! DEFINITION. initialization_round_loop: INIT_LOAD, INIT_ROUND, INIT_WHITEN (41_initialization.md R130 to
R135). -/

namespace Sys2Proof.Machine

/-- INIT_LOAD: load the state from key and nonce, clear the counters and `FAIL` (R131). -/
def execInitLoad (s : State) : Host.Outcome State Fault Refusal :=
  .next { s with
    S := loadState s.key s.nonce, rnd := 0#5, adpos := 0#64, mpos := 0#64, fail := false,
    phase := Phase.initRound }

/-- INIT_ROUND: one blank round with `Z0`, `Z1`; the one with `RND` = 15 is the last (R132). -/
def execInitRound (s : State) : Host.Outcome State Fault Refusal :=
  roundLoop Config.z0 Config.z1 Phase.initRound Phase.initWhiten s

/-- INIT_WHITEN: XOR the key halves into the state, then `ad_dispatch()` (R133). -/
def execInitWhiten (s : State) : Host.Outcome State Fault Refusal :=
  .next { s with
    S := whiten s.S s.key, phase := adDispatch s.dir s.adlen s.adpos s.mlen s.mpos }

end Sys2Proof.Machine
end

