-- ==== Sys2Proof/Machine/PartialBlock.lean ====
section
/-! DEFINITION. partial_block_padder: ENC_PART and DEC_PART (44_partial_block.md R160 to R166).
Outside the precondition that the dispatch establishes the pseudocode runs as written (DESIGN CHOICE, unsafe, log 5). -/

namespace Sys2Proof.Machine

/-- ENC_PART: encrypt the trailing `n` bytes; only `n` bytes leave the core, and the `Round` consumes the
zero-padded plaintext (R162). -/
def execEncPart (s : State) : Host.Outcome State Fault Refusal :=
  match remainder s.mlen s.mpos with
  | some n =>
    let wn := block (s.inp.read s.mpos.toNat n)
    .next { s with
      out := s.out.write s.mpos.toNat (toBytes (cipherBlock s.S wn) n),
      W := wn, S := absorbBlock s.S wn, mpos := s.mlen, phase := Phase.finRound }
  | none => .fault .remainderOutOfRange

/-- DEC_PART: decrypt the trailing `n` bytes; the bytes of the recovered block past `n` are zeroed before
the `Round` (R164). -/
def execDecPart (s : State) : Host.Outcome State Fault Refusal :=
  match remainder s.mlen s.mpos with
  | some n =>
    let wn := keepBytes (cipherBlock s.S (block (s.inp.read s.mpos.toNat n))) n
    .next { s with
      out := s.out.write s.mpos.toNat (toBytes wn n),
      W := wn, S := absorbBlock s.S wn, mpos := s.mlen, phase := Phase.finRound }
  | none => .fault .remainderOutOfRange

end Sys2Proof.Machine
end

