-- ==== Sys2Proof/Machine/Sequencer.lean ====
section
/-! DEFINITION. The top-level micro-operations IDLE and ZEROIZE (47_commands_and_sequencer.md R198, R205). -/

namespace Sys2Proof.Machine

/-- IDLE: the core has no enabled step and keeps its state (R198, R235). The model's step is a function,
so a turn given to the idle core leaves the state as it is (log 2). -/
def execIdle (s : State) : Host.Outcome State Fault Refusal := .next s

/-- ZEROIZE: erase `S`, `W`, `T` and the counters, report in `DONE` and `ERR`, return to IDLE (R205). -/
def execZeroize (s : State) : Host.Outcome State Fault Refusal :=
  .next { s with
    S := CipherState.zero, W := 0#256, T := 0#256, rnd := 0#5, adpos := 0#64, mpos := 0#64,
    done := true, err := outcomeCode s.fail, fail := false, phase := Phase.idle }

end Sys2Proof.Machine
end

