-- ==== Sys2Proof/Machine/TagVerification.lean ====
section
/-! DEFINITION. constant_time_tag_verifier: TAG_VERIFY and OUT_WIPE (46_tag_verification.md R180 to R186). -/

namespace Sys2Proof.Machine

/-- TAG_VERIFY: compare `T` with the 32 bytes at `IN[MLEN]`; on a mismatch raise `AUTH_FAIL` (R182, R221). -/
def execTagVerify (s : State) : Host.Outcome State Fault Refusal :=
  if equal32 s.T (block (s.inp.read s.mlen.toNat Config.tagBytes)) then
    .next { s with fail := false, phase := Phase.zeroize }
  else .next (raise .authFail s)

/-- OUT_WIPE: `OUT[0 .. MLEN-1]` becomes zero, all of it, in one step (R184). -/
def execOutWipe (s : State) : Host.Outcome State Fault Refusal :=
  .next { s with out := s.out.wipe s.mlen.toNat, phase := Phase.zeroize }

end Sys2Proof.Machine
end

