-- ==== Sys2Proof/Machine/Dispatch.lean ====
section
/-! DEFINITION. One arm per instruction of spec/opcode_table.json: the meaning each has. -/

namespace Sys2Proof.Machine

def exec (i : Instr) (s : State) : Host.Outcome State Fault Refusal :=
  match i with
  | .nop => Sys2Proof.Machine.execNop s
  | .enc => Sys2Proof.Machine.execEnc s
  | .dec => Sys2Proof.Machine.execDec s
  | .idle => Sys2Proof.Machine.execIdle s
  | .initLoad => Sys2Proof.Machine.execInitLoad s
  | .initRound => Sys2Proof.Machine.execInitRound s
  | .initWhiten => Sys2Proof.Machine.execInitWhiten s
  | .adFull => Sys2Proof.Machine.execAdFull s
  | .adPart => Sys2Proof.Machine.execAdPart s
  | .encFull => Sys2Proof.Machine.execEncFull s
  | .encPart => Sys2Proof.Machine.execEncPart s
  | .decFull => Sys2Proof.Machine.execDecFull s
  | .decPart => Sys2Proof.Machine.execDecPart s
  | .finRound => Sys2Proof.Machine.execFinRound s
  | .tagDerive => Sys2Proof.Machine.execTagDerive s
  | .tagWrite => Sys2Proof.Machine.execTagWrite s
  | .tagVerify => Sys2Proof.Machine.execTagVerify s
  | .outWipe => Sys2Proof.Machine.execOutWipe s
  | .zeroize => Sys2Proof.Machine.execZeroize s

end Sys2Proof.Machine
end

