-- ==== Sys2Proof/Machine/HostPort.lean ====
section
/-! DEFINITION. The host's side of a step: which agent moves next, what a host line does, and where the next
instruction comes from (30_encoding.md R94, R101, R102; 47_commands_and_sequencer.md R190, R195). -/

namespace Sys2Proof.Machine

/-- What the next step is: running an instruction, or a host access that runs none. -/
inductive Fetched where
  | run (i : Instr) (s : State)
  | host (o : Host.Outcome State Fault Refusal)

/-- A host register write (R30). While `BUSY` = 1 it is ignored, a `CMD` write before it is decoded (R36,
R94, R195). A `CMD` write while `BUSY` = 0 is decoded: NOP, ENC or DEC runs, any other word raises
`ILLEGAL_CMD` (R94, R194). -/
def fetchWrite (w : RegWrite) (s : State) : Fetched :=
  if busy s then .host (.next s)
  else
    match w with
    | .cmd c =>
      match decodeCmd c with
      | .ok i => .run i s
      | .error _ => .host (.next (raise .illegalCmd s))
    | w => .host (.next (writeReg w s))

/-- A host `FILL`: allowed only while `BUSY` = 0 (R101, R74, R257; log 8, log 9). -/
def fillSpace (sp : Space) (addr : Nat) (bs : List Byte) (s : State) : Host.Outcome State Fault Refusal :=
  if busy s then .refused .spaceOwnedByCore else .next (s.storeBytes sp addr bs)

/-- A host `DUMP` of `OUT`: allowed only while `BUSY` = 0 (R101, R74, R257; log 8). -/
def dumpOut (addr n : Nat) (s : State) : Host.Outcome State Fault Refusal :=
  if busy s then .refused .spaceOwnedByCore
  else .next { s with readData := some (.bytes (s.out.read addr n)) }

/-- A host register read: always allowed, and nothing of the core changes (R36). -/
def readHostReg (r : HostReg) (s : State) : State := { s with readData := some (readReg r s) }

/-- The next step (R190, R101). With no host line left the core moves: the micro-operation `PHASE` names
(R26, R93). A `WAIT` line lets the core move until `STATUS` reads `BUSY` = 0; a `CORE n` line lets it move
`n` times; every other line is one host access. Every interleaving of host and core is some script
(log 1). -/
def fetch (s : State) : Fetched :=
  match s.script with
  | [] => .run (decodeUop s.phase) s
  | .wr w :: rest => fetchWrite w { s with script := rest }
  | .rd r :: rest => .host (.next (readHostReg r { s with script := rest }))
  | .fill sp addr bs :: rest => .host (fillSpace sp addr bs { s with script := rest })
  | .wait :: rest =>
    if busy s then .run (decodeUop s.phase) s
    else .host (.next (readHostReg .status { s with script := rest }))
  | .dump addr n :: rest => .host (dumpOut addr n { s with script := rest })
  | .reset :: rest => .host (.next (resetEvent { s with script := rest }))
  | .core 0 :: rest => .host (.next { s with script := rest })
  | .core (n + 1) :: rest => .run (decodeUop s.phase) { s with script := .core n :: rest }

/-- The host lines a pseudo-instruction stands for (R102). -/
def Pseudo.lines : Pseudo → List HostLine
  | .encrypt key nonce ad pt =>
    [.wr (.key key), .wr (.nonce nonce), .wr (.adlen (BitVec.ofNat 64 ad.length)),
     .wr (.mlen (BitVec.ofNat 64 pt.length)), .fill .ad 0 ad, .fill .inp 0 pt, .wr (.cmd 0x01#8), .wait,
     .rd .status, .dump 0 (pt.length + Config.tagBytes)]
  | .decrypt key nonce ad ctt =>
    [.wr (.key key), .wr (.nonce nonce), .wr (.adlen (BitVec.ofNat 64 ad.length)),
     .wr (.mlen (BitVec.ofNat 64 (ctt.length - Config.tagBytes))), .fill .ad 0 ad, .fill .inp 0 ctt,
     .wr (.cmd 0x02#8), .wait, .rd .status, .dump 0 (ctt.length - Config.tagBytes)]

/-- Put a word of the opcode table where the next step fetches: a `UOP` code in `PHASE`, with no host line
before the core's step; a `CMD` word as the host's next line, with `PHASE` = IDLE, since a command is decoded
only while `BUSY` = 0 (R94; log 12). -/
def placeWord (f : Format) (w : Nat) (s : State) : State :=
  match f with
  | .uop => { s with script := [], phase := BitVec.ofNat 4 w }
  | .cmd => { s with script := .wr (.cmd (BitVec.ofNat 8 w)) :: s.script, phase := Phase.idle }

end Sys2Proof.Machine
end

