-- ==== Sys2Proof/Machine/Step.lean ====
section
/-! DEFINITION. One step of the machine (00_scope.md R11): one micro-operation of the core, or one host
access, the acceptance of a command among them. -/

namespace Sys2Proof.Machine

/-- One atomic step (R11, R190): one event, of the host or of the core (DEDUCED, log 15). -/
def step (s : State) : Host.Outcome State Fault Refusal :=
  match fetch s with
  | .run i t => exec i t
  | .host o => o

/-- `s` with a word of spec/opcode_table.json placed where `step` fetches its next instruction (log 12). -/
def State.withFetchWord (s : State) (nbits w : Nat) : State :=
  match tableFormat nbits w with
  | some f => placeWord f w s
  | none => s

end Sys2Proof.Machine
end

