-- ==== Sys2Proof/Machine/NetEffect.lean ====
section
/-! DEFINITION. The composite functions of the spec, on byte strings and state words alone: `Init`
(41_initialization.md R134), `Absorb` (42_ad_absorption.md R145), the message pass (43 R156),
`Finalize` (45_finalization.md R175), and the net effect of ENC and DEC (47_commands_and_sequencer.md R206,
R207). No meaning of an instruction uses them: they are what a whole operation is held against. -/

namespace Sys2Proof.Machine

/-- `Round^k(S, X0, X1)`: `Round(., X0, X1)` iterated (R134). -/
def roundIter (x0 x1 : W128) : Nat → CipherState → CipherState
  | 0, s => s
  | k + 1, s => roundIter x0 x1 k (round s x0 x1)

/-- `Init(key, nonce) = Whiten(Round^16(Load(key, nonce), Z0, Z1), key)` (R134). -/
def initState (key : W256) (nonce : W128) : CipherState :=
  whiten (roundIter Config.z0 Config.z1 16 (loadState key nonce)) key

/-- `ceil(L / 32)`, the number of blocks of a string of `L` bytes (R97, R145). -/
def blockCount (l : Nat) : Nat := (l + 31) / 32

/-- The bytes of block `j` of a string: 32 of them, or the 1 to 31 that remain (R97). -/
def chunk (bs : List Byte) (j : Nat) : List Byte := (bs.drop (32 * j)).take 32

/-- The state after `j` blocks of a string were absorbed, each zero-padded to 32 bytes (R145, R156, R206). -/
def absorbAt (s : CipherState) (bs : List Byte) : Nat → CipherState
  | 0 => s
  | j + 1 => absorbBlock (absorbAt s bs j) (block (chunk bs j))

/-- `Absorb(S, ad)` (R145); over a plaintext, the ratchet of the message pass (R156, R206). -/
def absorb (s : CipherState) (bs : List Byte) : CipherState := absorbAt s bs (blockCount bs.length)

/-- `Finalize(S, ADLEN, MLEN) = Fold(Round^16(S, le128(8*ADLEN), le128(8*MLEN)))` (R175). -/
def finalizeTag (s : CipherState) (adlen mlen : Len) : W256 :=
  foldTag (roundIter (lengthWord adlen) (lengthWord mlen) 16 s)

/-- The real bytes of ciphertext block `j` of plaintext `m`: `C_j = KS(S_j) xor B_j` (R206). -/
def encChunk (s : CipherState) (m : List Byte) (j : Nat) : List Byte :=
  toBytes (cipherBlock (absorbAt s m j) (block (chunk m j))) (chunk m j).length

/-- The first `j` blocks of the ciphertext of `m` from the state `s` (R206). -/
def encAt (s : CipherState) (m : List Byte) : Nat → List Byte
  | 0 => []
  | j + 1 => encAt s m j ++ encChunk s m j

/-- `CT`, the ciphertext of `m` from the state `s` (R206). -/
def encBytes (s : CipherState) (m : List Byte) : List Byte := encAt s m (blockCount m.length)

/-- `B_j` of R207: the first `n_j` bytes of `KS(S_j) xor pad32(ct_j)`, the rest zero. -/
def plainBlock (s : CipherState) (c : List Byte) : W256 := keepBytes (cipherBlock s (block c)) c.length

/-- The state after `j` blocks of a ciphertext were decrypted (R207). -/
def decStateAt (s : CipherState) (ct : List Byte) : Nat → CipherState
  | 0 => s
  | j + 1 => absorbBlock (decStateAt s ct j) (plainBlock (decStateAt s ct j) (chunk ct j))

/-- The real bytes of plaintext block `j` (R207). -/
def decChunk (s : CipherState) (ct : List Byte) (j : Nat) : List Byte :=
  toBytes (plainBlock (decStateAt s ct j) (chunk ct j)) (chunk ct j).length

/-- The first `j` blocks of the plaintext recovered from `ct` (R207). -/
def decAt (s : CipherState) (ct : List Byte) : Nat → List Byte
  | 0 => []
  | j + 1 => decAt s ct j ++ decChunk s ct j

/-- `M`, the plaintext recovered from `ct` from the state `s` (R207). -/
def decBytes (s : CipherState) (ct : List Byte) : List Byte := decAt s ct (blockCount ct.length)

/-- The state after the whole ciphertext was decrypted (R207). -/
def decState (s : CipherState) (ct : List Byte) : CipherState := decStateAt s ct (blockCount ct.length)

/-- The bytes of `AD` an operation absorbs, `AD[0 .. ADLEN-1]` (R60). -/
def State.adBytes (s : State) : List Byte := s.ad.read 0 s.adlen.toNat

/-- The bytes of `IN` an operation transforms, `IN[0 .. MLEN-1]` (R60). -/
def State.inBytes (s : State) : List Byte := s.inp.read 0 s.mlen.toNat

/-- The tag supplied to a DEC, `IN[MLEN .. MLEN+31]` (R60). -/
def State.suppliedTag (s : State) : W256 := block (s.inp.read s.mlen.toNat Config.tagBytes)

/-- `S_a = Absorb(Init(key, nonce), ad)` (R206). -/
def State.startState (s : State) : CipherState := absorb (initState s.key s.nonce) s.adBytes

/-- The tag of an ENC of the registers and spaces of `s` (R206). -/
def State.encTag (s : State) : W256 := finalizeTag (absorb s.startState s.inBytes) s.adlen s.mlen

/-- The tag a DEC of the registers and spaces of `s` computes (R207). -/
def State.decTag (s : State) : W256 := finalizeTag (decState s.startState s.inBytes) s.adlen s.mlen

/-- The number of core steps of an operation that ends without a mismatch (R201). -/
def State.opSteps (s : State) : Nat := 37 + blockCount s.adlen.toNat + blockCount s.mlen.toNat

end Sys2Proof.Machine
end

