-- ==== Sys2Proof/Safety.lean ====
section
/-! DEFINITION. What counts as a safe run: the invariants the spec states of every reachable state, and
running several steps. -/

namespace Sys2Proof.Machine

/-- `k` steps in a row, stopping at the first fault or refusal. -/
def run : Nat → State → Host.Outcome State Fault Refusal
  | 0, s => .next s
  | k + 1, s =>
    match step s with
    | .next t => run k t
    | .fault r => .fault r
    | .refused r => .refused r

/-- The three spaces are in canonical form. -/
abbrev SpacesWf (s : State) : Prop := s.ad.wf ∧ s.inp.wf ∧ s.out.wf

/-- The idle invariant (R43). -/
abbrev IdleClean (s : State) : Prop :=
  s.phase = Phase.idle →
    s.S = CipherState.zero ∧ s.W = 0#256 ∧ s.T = 0#256 ∧ s.rnd = 0#5 ∧ s.adpos = 0#64 ∧ s.mpos = 0#64 ∧
      s.fail = false

/-- `RND` is 0 to 15, and 0 outside the two round loops (R27). -/
abbrev RoundCounterOk (s : State) : Prop :=
  s.rnd.toNat ≤ 15 ∧ (s.phase ≠ Phase.initRound → s.phase ≠ Phase.finRound → s.rnd = 0#5)

/-- The positions stay within their lengths and are multiples of 32 unless they equal them (R28). -/
abbrev PositionsOk (s : State) : Prop :=
  s.adpos.toNat ≤ s.adlen.toNat ∧ s.mpos.toNat ≤ s.mlen.toNat ∧
    (s.adpos = s.adlen ∨ s.adpos.toNat % 32 = 0) ∧ (s.mpos = s.mlen ∨ s.mpos.toNat % 32 = 0)

/-- `FAIL` is 0 but between TAG_VERIFY and ZEROIZE of a DEC (R29), and OUT_WIPE runs only with `FAIL` = 1
(R184). -/
abbrev VerdictOk (s : State) : Prop :=
  (s.fail = true → s.dir = true ∧ (s.phase = Phase.outWipe ∨ s.phase = Phase.zeroize)) ∧
    (s.phase = Phase.outWipe → s.fail = true)

/-- The preconditions the dispatch guarantees (R142, R144, R152, R154, R162, R164, R176, R182). -/
abbrev DispatchOk (s : State) : Prop :=
  (s.phase = Phase.adFull → s.adpos.toNat + 32 ≤ s.adlen.toNat) ∧
  (s.phase = Phase.adPart → s.adpos.toNat < s.adlen.toNat ∧ s.adlen.toNat < s.adpos.toNat + 32) ∧
  (s.phase = Phase.encFull ∨ s.phase = Phase.decFull → s.mpos.toNat + 32 ≤ s.mlen.toNat) ∧
  (s.phase = Phase.encPart ∨ s.phase = Phase.decPart →
    s.mpos.toNat < s.mlen.toNat ∧ s.mlen.toNat < s.mpos.toNat + 32) ∧
  (s.phase = Phase.encFull ∨ s.phase = Phase.encPart ∨ s.phase = Phase.tagWrite → s.dir = false) ∧
  (s.phase = Phase.decFull ∨ s.phase = Phase.decPart ∨ s.phase = Phase.tagVerify ∨ s.phase = Phase.outWipe →
    s.dir = true)

/-- `STATUS` is one of the values of R35: while an operation is in flight `DONE` and `ERR` are 0; `ERR` is 1
only with `DONE` = 1 after a DEC, 2 only with `DONE` = 0, and never 3; all zero only with `DIR` = 0 (after
reset). -/
abbrev StatusOk (s : State) : Prop :=
  (s.phase ≠ Phase.idle → s.done = false ∧ s.err = 0#2) ∧
  (s.done = true → s.err = 0#2 ∨ s.err = 1#2 ∧ s.dir = true) ∧
  (s.done = false → s.err = 0#2 ∨ s.err = 2#2) ∧
  (s.phase = Phase.idle → s.done = false → s.err = 0#2 → s.dir = false)

/-- The scratch registers are zero before the first micro-operation that writes them: `W` while the state is
initialized (R135), `T` outside the steps from TAG_DERIVE to ZEROIZE (R25). -/
abbrev ScratchOk (s : State) : Prop :=
  (s.phase = Phase.initLoad ∨ s.phase = Phase.initRound ∨ s.phase = Phase.initWhiten → s.W = 0#256) ∧
  (s.phase ≠ Phase.tagWrite → s.phase ≠ Phase.tagVerify → s.phase ≠ Phase.outWipe →
    s.phase ≠ Phase.zeroize → s.T = 0#256)

/-- The invariant of the machine: what the spec says of every state that reset and steps reach. -/
structure Inv (s : State) : Prop where
  spaces : SpacesWf s
  idleClean : IdleClean s
  round : RoundCounterOk s
  positions : PositionsOk s
  verdict : VerdictOk s
  dispatch : DispatchOk s
  status : StatusOk s
  scratch : ScratchOk s

/-- The values `STATUS` can take (R35). -/
def legalStatus : List (BitVec 8) := [0x00#8, 0x01#8, 0x11#8, 0x02#8, 0x12#8, 0x16#8, 0x08#8, 0x18#8]

/-- The bytes of `OUT` that the core's next step writes: a block or its remainder at `MPOS` (R152, R154, R162,
R164), the tag at `MLEN` (R176), or `OUT[0 .. MLEN-1]` (R184). -/
abbrev WritesOut (s : State) (a : Nat) : Prop :=
  (s.phase = Phase.encFull ∨ s.phase = Phase.decFull) ∧ s.mpos.toNat ≤ a ∧ a < s.mpos.toNat + 32 ∨
  (s.phase = Phase.encPart ∨ s.phase = Phase.decPart) ∧ s.mpos.toNat ≤ a ∧ a < s.mlen.toNat ∨
  s.phase = Phase.tagWrite ∧ s.mlen.toNat ≤ a ∧ a < s.mlen.toNat + 32 ∨
  s.phase = Phase.outWipe ∧ a < s.mlen.toNat

/-- The two states agree on all that R199 lets the control flow depend on, outside TAG_VERIFY. -/
abbrev SamePublicControl (s u : State) : Prop :=
  s.phase = u.phase ∧ s.rnd = u.rnd ∧ s.dir = u.dir ∧ s.adlen = u.adlen ∧ s.adpos = u.adpos ∧
    s.mlen = u.mlen ∧ s.mpos = u.mpos

/-- The verdict TAG_VERIFY takes from `T` and the supplied tag (R182). -/
def State.verdict (s : State) : Bool := equal32 s.T s.suppliedTag

end Sys2Proof.Machine
end

