-- ==== Sys2Proof/Certificates/Slice0/Obligations.lean ====
section
/-! DEFINITION. The statements for the provers, from the numbered rules of spec/. A record update
`{ s with … }` is the frame: every component it does not name is as in `s`; where it names `out := out`, the
clauses on `out.get` say what each byte of `OUT` is. -/

open Sys2Proof Sys2Proof.Machine

-- ---------------------------------------------------------------- encodings (30_encoding.md)

/-- R92, R93, R103: decoding an encoding gives an instruction exactly where it is that instruction's
encoding, so no two rows share one and every number of the right width that is no row is refused. -/
def Obligations.DecodeExactlyInvertsEncode : Prop :=
  ∀ (e : Encoding) (i : Instr), decode e = .ok i ↔ e = encode i

/-- R94: the command decoder on every 8-bit value. -/
def Obligations.CommandDecoderIsTotal : Prop :=
  ∀ c : BitVec 8,
    (c = 0x00#8 → decodeCmd c = .ok .nop) ∧ (c = 0x01#8 → decodeCmd c = .ok .enc) ∧
    (c = 0x02#8 → decodeCmd c = .ok .dec) ∧
    (3 ≤ c.toNat → ∀ i, decodeCmd c ≠ .ok i)

/-- R93: the sixteen values of `PHASE`, each written out. -/
def Obligations.PhaseDecoderTable : Prop :=
  decodeUop 0x0#4 = .idle ∧ decodeUop 0x1#4 = .initLoad ∧ decodeUop 0x2#4 = .initRound ∧
  decodeUop 0x3#4 = .initWhiten ∧ decodeUop 0x4#4 = .adFull ∧ decodeUop 0x5#4 = .adPart ∧
  decodeUop 0x6#4 = .encFull ∧ decodeUop 0x7#4 = .encPart ∧ decodeUop 0x8#4 = .decFull ∧
  decodeUop 0x9#4 = .decPart ∧ decodeUop 0xA#4 = .finRound ∧ decodeUop 0xB#4 = .tagDerive ∧
  decodeUop 0xC#4 = .tagWrite ∧ decodeUop 0xD#4 = .tagVerify ∧ decodeUop 0xE#4 = .outWipe ∧
  decodeUop 0xF#4 = .zeroize

-- ---------------------------------------------------------------- a step and the host's lines

/-- R26, R190: with no host line before it, and under a `CORE n` line, and under `WAIT` while `BUSY` = 1, a
step is `exec` of the micro-operation `PHASE` names. That the core moves when the script is empty, and the
counting of a `CORE` line, are the model's choice (log 1). -/
def Obligations.StepRunsThePhaseMicroOp : Prop :=
  ∀ (s : State) (rest : List HostLine) (n : Nat),
    (s.script = [] → step s = exec (decodeUop s.phase) s) ∧
    (s.script = .core (n + 1) :: rest →
      step s = exec (decodeUop s.phase) { s with script := .core n :: rest }) ∧
    (s.script = .wait :: rest → s.phase ≠ Phase.idle → step s = exec (decodeUop s.phase) s)

/-- R94: with `BUSY` = 0, a step at a `CMD` write whose word decodes is `exec` of that command, the line being
used up. -/
def Obligations.StepRunsTheDecodedCommand : Prop :=
  ∀ (s : State) (c : BitVec 8) (i : Instr) (rest : List HostLine),
    s.phase = Phase.idle → s.script = .wr (.cmd c) :: rest → decodeCmd c = .ok i →
    step s = exec i { s with script := rest }

/-- R194, R222, R232: an illegal command word with `BUSY` = 0 sets `ERR` = 2 and `DONE` = 0 and changes nothing
else of the core. -/
def Obligations.IllegalCommandOnlySetsErr : Prop :=
  ∀ (s : State) (c : BitVec 8) (rest : List HostLine),
    s.phase = Phase.idle → s.script = .wr (.cmd c) :: rest → 3 ≤ c.toNat →
    step s = .next { s with script := rest, done := false, err := 2#2 }

/-- R36: while `BUSY` = 1 a write to any register, `CMD` included, changes nothing; a read is allowed in any
phase and changes nothing of the core; and while `BUSY` = 1 `KEY`, `NONCE`, `ADLEN`, `MLEN` keep their values
over every step but a reset. -/
def Obligations.OperandsFixedWhileBusy : Prop :=
  ∀ (s : State) (rest : List HostLine),
    (s.phase ≠ Phase.idle → ∀ w, s.script = .wr w :: rest → step s = .next { s with script := rest }) ∧
    (∀ r, s.script = .rd r :: rest →
      step s = .next { s with script := rest, readData := some (readReg r s) }) ∧
    (∀ t, s.phase ≠ Phase.idle → (∀ l, s.script ≠ .reset :: l) → step s = .next t →
      t.key = s.key ∧ t.nonce = s.nonce ∧ t.adlen = s.adlen ∧ t.mlen = s.mlen)

/-- R30: the six registers, their numbers, what a write does with `BUSY` = 0 and what a read returns in any
phase, and their reset values. -/
def Obligations.HostRegisterAccess : Prop :=
  (HostReg.cmd.number = 0 ∧ HostReg.status.number = 1 ∧ HostReg.adlen.number = 2 ∧
    HostReg.mlen.number = 3 ∧ HostReg.nonce.number = 4 ∧ HostReg.key.number = 5) ∧
  (∀ (s : State) (rest : List HostLine), s.phase = Phase.idle →
    (∀ v, s.script = .wr (.status v) :: rest → step s = .next { s with script := rest }) ∧
    (∀ v, s.script = .wr (.adlen v) :: rest → step s = .next { s with script := rest, adlen := v }) ∧
    (∀ v, s.script = .wr (.mlen v) :: rest → step s = .next { s with script := rest, mlen := v }) ∧
    (∀ v, s.script = .wr (.nonce v) :: rest → step s = .next { s with script := rest, nonce := v }) ∧
    (∀ v, s.script = .wr (.key v) :: rest → step s = .next { s with script := rest, key := v })) ∧
  (∀ (s : State) (rest : List HostLine) (r : HostReg), s.script = .rd r :: rest →
    step s = .next { s with
      script := rest
      readData := some (match r with
        | .cmd => .byte 0x00#8
        | .status => .byte (status s)
        | .adlen => .len s.adlen
        | .mlen => .len s.mlen
        | .nonce => .word s.nonce
        | .key => .wide 0#256) }) ∧
  (status State.reset = 0x00#8 ∧ State.reset.adlen = 0#64 ∧ State.reset.mlen = 0#64 ∧
    State.reset.nonce = 0#128 ∧ State.reset.key = 0#256)

/-- R35: the bits of `STATUS`. -/
def Obligations.StatusBits : Prop :=
  ∀ s : State,
    (status s).getLsbD 0 = decide (s.phase ≠ Phase.idle) ∧ (status s).getLsbD 1 = s.done ∧
    (status s).extractLsb' 2 2 = s.err ∧ (status s).getLsbD 4 = s.dir ∧
    (status s).extractLsb' 5 3 = 0#3

/-- R35: under the invariant `STATUS` is one of exactly eight values, a clause the spec marks as derived from
R192, R193, R194 and R205. -/
def Obligations.StatusIsLegal : Prop := ∀ s : State, Inv s → status s ∈ legalStatus

/-- R101, R69, R65: with `BUSY` = 0, FILL puts the bytes into the named space and changes no other byte and
nothing else, and DUMP returns the bytes of `OUT`. The start offset and FILL of `OUT` are the model's reading
(log 9, log 10). -/
def Obligations.HostFillAndDumpWhileIdle : Prop :=
  ∀ (s : State) (rest : List HostLine) (a n : Nat) (bs : List Byte),
    s.phase = Phase.idle → SpacesWf s →
    (∀ sp, s.script = .fill sp a bs :: rest →
      ∃ m : Memory,
        step s = .next (match sp with
          | .ad => { s with script := rest, ad := m }
          | .inp => { s with script := rest, inp := m }
          | .out => { s with script := rest, out := m }) ∧
        (∀ (i : Nat) (h : i < bs.length), m.get (a + i) = bs[i]) ∧
        (∀ b, b < a ∨ a + bs.length ≤ b → m.get b = (s.space sp).get b)) ∧
    (s.script = .dump a n :: rest →
      ∃ bytes : List Byte, bytes.length = n ∧
        (∀ (i : Nat) (h : i < bytes.length), bytes[i] = s.out.get (a + i)) ∧
        step s = .next { s with script := rest, readData := some (.bytes bytes) })

/-- R74, R257, U1: the host has no move that touches a space while `BUSY` = 1. The refusal is the treatment
93_implementation_defined.md names (log 8). -/
def Obligations.HostSpaceAccessRefusedWhileBusy : Prop :=
  ∀ (s : State) (rest : List HostLine), s.phase ≠ Phase.idle →
    (∀ sp a bs, s.script = .fill sp a bs :: rest → step s = .refused .spaceOwnedByCore) ∧
    (∀ a n, s.script = .dump a n :: rest → step s = .refused .spaceOwnedByCore)

/-- R101: with `BUSY` = 0, WAIT reads `STATUS` and is over, and a `CORE 0` line is over. That these lines are
steps of the machine is the model's choice (log 1). -/
def Obligations.WaitEndsWhenIdle : Prop :=
  ∀ (s : State) (rest : List HostLine),
    (s.phase = Phase.idle → s.script = .wait :: rest →
      step s = .next { s with script := rest, readData := some (.byte (status s)) }) ∧
    (s.script = .core 0 :: rest → step s = .next { s with script := rest })

/-- R41: the state after reset, and the reset event leaves the three spaces alone. -/
def Obligations.ResetValues : Prop :=
  (State.reset.S = ⟨0, 0, 0, 0, 0, 0, 0⟩ ∧ State.reset.W = 0 ∧ State.reset.T = 0 ∧
    State.reset.phase = 0x0#4 ∧ State.reset.rnd = 0 ∧ State.reset.adpos = 0 ∧ State.reset.mpos = 0 ∧
    State.reset.fail = false ∧ State.reset.key = 0 ∧ State.reset.nonce = 0 ∧ State.reset.adlen = 0 ∧
    State.reset.mlen = 0 ∧ status State.reset = 0x00#8) ∧
  (∀ (s : State) (rest : List HostLine), s.script = .reset :: rest →
    step s = .next { State.reset with
      ad := s.ad, inp := s.inp, out := s.out, script := rest, readData := s.readData })

-- ---------------------------------------------------------------- the commands (47 R191 to R195)

/-- R191: NOP changes nothing, in any phase. -/
def Obligations.NopChangesNothing : Prop := ∀ s : State, exec .nop s = .next s

/-- R192: the acceptance step of ENC; with `BUSY` = 1 it is ignored (R195). -/
def Obligations.EncAcceptance : Prop :=
  ∀ s : State,
    (s.phase = Phase.idle →
      exec .enc s = .next { s with dir := false, done := false, err := 0#2, phase := Phase.initLoad }) ∧
    (s.phase ≠ Phase.idle → exec .enc s = .next s)

/-- R193: the acceptance step of DEC; with `BUSY` = 1 it is ignored (R195). -/
def Obligations.DecAcceptance : Prop :=
  ∀ s : State,
    (s.phase = Phase.idle →
      exec .dec s = .next { s with dir := true, done := false, err := 0#2, phase := Phase.initLoad }) ∧
    (s.phase ≠ Phase.idle → exec .dec s = .next s)

-- ---------------------------------------------------------------- IDLE and the exit step

/-- R198, R235: a turn of the idle core changes nothing. That the model gives the idle core a turn at all
is its own choice (log 2). -/
def Obligations.IdleKeepsTheState : Prop := ∀ s : State, exec .idle s = .next s

/-- R205: ZEROIZE. -/
def Obligations.ZeroizeErasesAndReports : Prop :=
  ∀ s : State,
    exec .zeroize s = .next { s with
      S := ⟨0, 0, 0, 0, 0, 0, 0⟩, W := 0, T := 0, rnd := 0, adpos := 0, mpos := 0, done := true,
      err := if s.fail then 1#2 else 0#2, fail := false, phase := Phase.idle }

-- ---------------------------------------------------------------- initialization (41)

/-- R131: INIT_LOAD. -/
def Obligations.InitLoadFromKeyAndNonce : Prop :=
  ∀ s : State,
    exec .initLoad s = .next { s with
      S := { s0 := hi s.key, s1 := s.nonce, s2 := Config.z0, s3 := lo s.key, s4 := Config.z1,
             s5 := s.nonce ^^^ hi s.key, s6 := 0 }
      rnd := 0, adpos := 0, mpos := 0, fail := false, phase := Phase.initRound }

/-- R132: INIT_ROUND, for every `RND` the register may hold (R27). -/
def Obligations.InitRoundCountsToWhiten : Prop :=
  ∀ s : State,
    (s.rnd = 15 → exec .initRound s =
      .next { s with S := round s.S Config.z0 Config.z1, rnd := 0, phase := Phase.initWhiten }) ∧
    (s.rnd.toNat < 15 → exec .initRound s =
      .next { s with S := round s.S Config.z0 Config.z1, rnd := s.rnd + 1, phase := Phase.initRound })

/-- R133: INIT_WHITEN, its successor by R196 and R197 with the positions it finds. -/
def Obligations.InitWhitenThenDispatch : Prop :=
  ∀ s : State,
    exec .initWhiten s = .next { s with
      S := { s0 := s.S.s0 ^^^ lo s.key, s1 := s.S.s1 ^^^ lo s.key, s2 := s.S.s2 ^^^ hi s.key,
             s3 := s.S.s3 ^^^ lo s.key, s4 := s.S.s4 ^^^ lo s.key, s5 := s.S.s5 ^^^ hi s.key,
             s6 := s.S.s6 ^^^ hi s.key }
      phase := adDispatch s.dir s.adlen s.adpos s.mlen s.mpos }

/-- R196, R197: the two dispatch functions, on positions within their lengths (R28). -/
def Obligations.DispatchFunctions : Prop :=
  ∀ (dir : Bool) (adlen adpos mlen mpos : Len),
    adpos.toNat ≤ adlen.toNat → mpos.toNat ≤ mlen.toNat →
    (adpos.toNat + 32 ≤ adlen.toNat → adDispatch dir adlen adpos mlen mpos = Phase.adFull) ∧
    (adpos.toNat < adlen.toNat → adlen.toNat < adpos.toNat + 32 →
      adDispatch dir adlen adpos mlen mpos = Phase.adPart) ∧
    (adpos.toNat = adlen.toNat → adDispatch dir adlen adpos mlen mpos = msgDispatch dir mlen mpos) ∧
    (mpos.toNat + 32 ≤ mlen.toNat →
      msgDispatch dir mlen mpos = if dir then Phase.decFull else Phase.encFull) ∧
    (mpos.toNat < mlen.toNat → mlen.toNat < mpos.toNat + 32 →
      msgDispatch dir mlen mpos = if dir then Phase.decPart else Phase.encPart) ∧
    (mpos.toNat = mlen.toNat → msgDispatch dir mlen mpos = Phase.finRound)

-- ---------------------------------------------------------------- associated data (42)

/-- R142: AD_FULL under its precondition: the two halves are the 32 bytes of `AD` at `ADPOS`. -/
def Obligations.AdFullAbsorbsBlock : Prop :=
  ∀ s : State, s.adpos.toNat + 32 ≤ s.adlen.toNat →
    ∃ x0 x1 : W128,
      (∀ i, i < 16 → byteAt x0 i = s.ad.get (s.adpos.toNat + i)) ∧
      (∀ i, i < 16 → byteAt x1 i = s.ad.get (s.adpos.toNat + 16 + i)) ∧
      exec .adFull s = .next { s with
        S := round s.S x0 x1, adpos := s.adpos + 32
        phase := adDispatch s.dir s.adlen (s.adpos + 32) s.mlen s.mpos }

/-- R144: AD_PART under its precondition: `W` holds the `n` bytes of `AD` from `ADPOS` on, then zeros. -/
def Obligations.AdPartAbsorbsPaddedRemainder : Prop :=
  ∀ s : State, s.adpos.toNat < s.adlen.toNat → s.adlen.toNat < s.adpos.toNat + 32 →
    ∃ w : W256,
      (∀ i, i < 32 → byteAt w i =
        if s.adpos.toNat + i < s.adlen.toNat then s.ad.get (s.adpos.toNat + i) else 0) ∧
      exec .adPart s = .next { s with
        S := round s.S (lo w) (hi w), W := w, adpos := s.adlen
        phase := msgDispatch s.dir s.mlen s.mpos }

-- ---------------------------------------------------------------- full blocks (43)

/-- R152: ENC_FULL under its precondition: the keystream of the old state, `Round` fed the plaintext halves,
and `OUT[MPOS .. MPOS+31]` the only bytes written. -/
def Obligations.EncFullEncryptsBlock : Prop :=
  ∀ s : State, s.out.wf → s.dir = false → s.mpos.toNat + 32 ≤ s.mlen.toNat →
    ∃ (m0 m1 : W128) (out : Memory),
      (∀ i, i < 16 → byteAt m0 i = s.inp.get (s.mpos.toNat + i)) ∧
      (∀ i, i < 16 → byteAt m1 i = s.inp.get (s.mpos.toNat + 16 + i)) ∧
      exec .encFull s = .next { s with
        S := round s.S m0 m1, mpos := s.mpos + 32, out := out
        phase := msgDispatch s.dir s.mlen (s.mpos + 32) } ∧
      (∀ i, i < 16 → out.get (s.mpos.toNat + i) =
        byteAt (aesRound (s.S.s3 ^^^ s.S.s5) 0 ^^^ s.S.s0 ^^^ m0) i) ∧
      (∀ i, i < 16 → out.get (s.mpos.toNat + 16 + i) =
        byteAt (aesRound (s.S.s4 ^^^ s.S.s6) 0 ^^^ s.S.s2 ^^^ m1) i) ∧
      (∀ a, a < s.mpos.toNat ∨ s.mpos.toNat + 32 ≤ a → out.get a = s.out.get a)

/-- R154: DEC_FULL under its precondition: `Round` is fed the recovered plaintext, never ciphertext. -/
def Obligations.DecFullDecryptsBlock : Prop :=
  ∀ s : State, s.out.wf → s.dir = true → s.mpos.toNat + 32 ≤ s.mlen.toNat →
    ∃ (c0 c1 m0 m1 : W128) (out : Memory),
      (∀ i, i < 16 → byteAt c0 i = s.inp.get (s.mpos.toNat + i)) ∧
      (∀ i, i < 16 → byteAt c1 i = s.inp.get (s.mpos.toNat + 16 + i)) ∧
      m0 = aesRound (s.S.s3 ^^^ s.S.s5) 0 ^^^ s.S.s0 ^^^ c0 ∧
      m1 = aesRound (s.S.s4 ^^^ s.S.s6) 0 ^^^ s.S.s2 ^^^ c1 ∧
      exec .decFull s = .next { s with
        S := round s.S m0 m1, mpos := s.mpos + 32, out := out
        phase := msgDispatch s.dir s.mlen (s.mpos + 32) } ∧
      (∀ i, i < 16 → out.get (s.mpos.toNat + i) = byteAt m0 i) ∧
      (∀ i, i < 16 → out.get (s.mpos.toNat + 16 + i) = byteAt m1 i) ∧
      (∀ a, a < s.mpos.toNat ∨ s.mpos.toNat + 32 ≤ a → out.get a = s.out.get a)

/-- R155, which the spec derives from R150, R152, R154 and R117: DEC_FULL undoes ENC_FULL and leaves the same
cipher state, for every state and block. -/
def Obligations.DecFullInvertsEncFull : Prop :=
  ∀ s t u v : State,
    s.out.wf → u.out.wf → exec .encFull s = .next t → exec .decFull u = .next v → u.S = s.S →
    (∀ i, i < 32 → u.inp.get (u.mpos.toNat + i) = t.out.get (s.mpos.toNat + i)) →
    v.S = t.S ∧ ∀ i, i < 32 → v.out.get (u.mpos.toNat + i) = s.inp.get (s.mpos.toNat + i)

-- ---------------------------------------------------------------- partial blocks (44)

/-- R162: ENC_PART under its precondition: `W` is the zero-padded plaintext, only `n` bytes leave the core,
`Round` consumes all of `W`. -/
def Obligations.EncPartEncryptsRemainder : Prop :=
  ∀ s : State, s.out.wf → s.dir = false →
    s.mpos.toNat < s.mlen.toNat → s.mlen.toNat < s.mpos.toNat + 32 →
    ∃ (w : W256) (out : Memory),
      (∀ i, i < 32 → byteAt w i =
        if s.mpos.toNat + i < s.mlen.toNat then s.inp.get (s.mpos.toNat + i) else 0) ∧
      exec .encPart s = .next { s with
        S := round s.S (lo w) (hi w), W := w, mpos := s.mlen, out := out, phase := Phase.finRound } ∧
      (∀ i, s.mpos.toNat + i < s.mlen.toNat →
        out.get (s.mpos.toNat + i) = byteAt (ks s.S) i ^^^ s.inp.get (s.mpos.toNat + i)) ∧
      (∀ a, a < s.mpos.toNat ∨ s.mlen.toNat ≤ a → out.get a = s.out.get a)

/-- R164: DEC_PART under its precondition: the recovered bytes past `n` are zero in `W` and in the `Round`. -/
def Obligations.DecPartDecryptsRemainder : Prop :=
  ∀ s : State, s.out.wf → s.dir = true →
    s.mpos.toNat < s.mlen.toNat → s.mlen.toNat < s.mpos.toNat + 32 →
    ∃ (w : W256) (out : Memory),
      (∀ i, i < 32 → byteAt w i =
        if s.mpos.toNat + i < s.mlen.toNat
        then byteAt (ks s.S) i ^^^ s.inp.get (s.mpos.toNat + i) else 0) ∧
      exec .decPart s = .next { s with
        S := round s.S (lo w) (hi w), W := w, mpos := s.mlen, out := out, phase := Phase.finRound } ∧
      (∀ i, s.mpos.toNat + i < s.mlen.toNat → out.get (s.mpos.toNat + i) = byteAt w i) ∧
      (∀ a, a < s.mpos.toNat ∨ s.mlen.toNat ≤ a → out.get a = s.out.get a)

/-- R165, which the spec derives from R162 and R164: DEC_PART undoes ENC_PART and leaves the same cipher state and `W`: for every state and every `n` in
1 to 31. -/
def Obligations.DecPartInvertsEncPart : Prop :=
  ∀ s t u v : State,
    s.out.wf → u.out.wf → exec .encPart s = .next t → exec .decPart u = .next v → u.S = s.S →
    s.mpos.toNat < s.mlen.toNat → s.mlen.toNat < s.mpos.toNat + 32 →
    u.mlen.toNat - u.mpos.toNat = s.mlen.toNat - s.mpos.toNat →
    (∀ i, s.mpos.toNat + i < s.mlen.toNat →
      u.inp.get (u.mpos.toNat + i) = t.out.get (s.mpos.toNat + i)) →
    v.S = t.S ∧ v.W = t.W ∧
      ∀ i, s.mpos.toNat + i < s.mlen.toNat →
        v.out.get (u.mpos.toNat + i) = s.inp.get (s.mpos.toNat + i)

-- ---------------------------------------------------------------- finalization (45)

/-- R172: FIN_ROUND, for every `RND` the register may hold (R27). -/
def Obligations.FinRoundCountsToTagDerive : Prop :=
  ∀ s : State,
    (s.rnd = 15 → exec .finRound s =
      .next { s with
        S := round s.S (BitVec.ofNat 128 (8 * s.adlen.toNat)) (BitVec.ofNat 128 (8 * s.mlen.toNat))
        rnd := 0, phase := Phase.tagDerive }) ∧
    (s.rnd.toNat < 15 → exec .finRound s =
      .next { s with
        S := round s.S (BitVec.ofNat 128 (8 * s.adlen.toNat)) (BitVec.ofNat 128 (8 * s.mlen.toNat))
        rnd := s.rnd + 1, phase := Phase.finRound })

/-- R99: the encoded lengths never wrap, bytes 9 to 15 are 0x00 and byte 8 is at most 0x07. -/
def Obligations.LengthWordIsExact : Prop :=
  ∀ l : Len,
    (lengthWord l).toNat = 8 * l.toNat ∧ (∀ i, 9 ≤ i → i ≤ 15 → byteAt (lengthWord l) i = 0) ∧
    (byteAt (lengthWord l) 8).toNat ≤ 7

/-- R174: TAG_DERIVE folds four words, then three. -/
def Obligations.TagDeriveFoldsTheState : Prop :=
  ∀ s : State, ∃ w : W256,
    exec .tagDerive s =
      .next { s with T := w, phase := if s.dir then Phase.tagVerify else Phase.tagWrite } ∧
    lo w = s.S.s0 ^^^ s.S.s1 ^^^ s.S.s2 ^^^ s.S.s3 ∧ hi w = s.S.s4 ^^^ s.S.s5 ^^^ s.S.s6

/-- R176: TAG_WRITE stores the 32 bytes of `T` at `OUT[MLEN]` and nothing else. -/
def Obligations.TagWriteAppendsTheTag : Prop :=
  ∀ s : State, s.out.wf → s.dir = false →
    ∃ out : Memory,
      exec .tagWrite s = .next { s with out := out, phase := Phase.zeroize } ∧
      (∀ i, i < 32 → out.get (s.mlen.toNat + i) = byteAt s.T i) ∧
      (∀ a, a < s.mlen.toNat ∨ s.mlen.toNat + 32 ≤ a → out.get a = s.out.get a)

-- ---------------------------------------------------------------- tag verification (46)

/-- R181: the OR-accumulated comparison is equality. -/
def Obligations.TagComparisonIsEquality : Prop := ∀ a b : W256, equal32 a b = true ↔ a = b

/-- R182: TAG_VERIFY on a match and on a mismatch, the supplied tag being `IN[MLEN .. MLEN+31]`. -/
def Obligations.TagVerifyVerdict : Prop :=
  ∀ s : State, s.dir = true →
    ((∀ i, i < 32 → byteAt s.T i = s.inp.get (s.mlen.toNat + i)) →
      exec .tagVerify s = .next { s with fail := false, phase := Phase.zeroize }) ∧
    ((∃ i, i < 32 ∧ byteAt s.T i ≠ s.inp.get (s.mlen.toNat + i)) →
      exec .tagVerify s = .next { s with fail := true, phase := Phase.outWipe })

/-- R184: OUT_WIPE zeroes all of `OUT[0 .. MLEN-1]` and no other byte. -/
def Obligations.OutWipeErasesPlaintext : Prop :=
  ∀ s : State, s.out.wf → s.fail = true →
    ∃ out : Memory,
      exec .outWipe s = .next { s with out := out, phase := Phase.zeroize } ∧
      ∀ a, out.get a = if a < s.mlen.toNat then 0 else s.out.get a

-- ---------------------------------------------------------------- where a micro-operation stops

/-- The model's choice (log 6, log 7): outside the states R27, R28 and R166 allow, where a counter has no
room for its new value or a remainder is no block length, the micro-operation faults by name. -/
def Obligations.FaultsOutsideTheSpecsStates : Prop :=
  ∀ s : State,
    (s.rnd.toNat = 31 →
      exec .initRound s = .fault .counterOverflow ∧ exec .finRound s = .fault .counterOverflow) ∧
    (2 ^ 64 ≤ s.adpos.toNat + 32 → exec .adFull s = .fault .counterOverflow) ∧
    (2 ^ 64 ≤ s.mpos.toNat + 32 →
      exec .encFull s = .fault .counterOverflow ∧ exec .decFull s = .fault .counterOverflow) ∧
    (s.adlen.toNat < s.adpos.toNat ∨ s.adpos.toNat + 32 < s.adlen.toNat →
      exec .adPart s = .fault .remainderOutOfRange) ∧
    (s.mlen.toNat < s.mpos.toNat ∨ s.mpos.toNat + 32 < s.mlen.toNat →
      exec .encPart s = .fault .remainderOutOfRange ∧ exec .decPart s = .fault .remainderOutOfRange)

-- ---------------------------------------------------------------- AesRound and Round (40)

/-- R110, R111, R114, R115, whose tables the spec supplies from general knowledge (log 13): each byte of `AesRound`, row `r` of column `c`, from the S-box, the row
rotation `in[r][(c + r) mod 4]`, the MixColumns matrix, and the round key XORed last. -/
def Obligations.AesRoundBytes : Prop :=
  ∀ (b rk : W128) (c : Nat), c < 4 →
    let a (r : Nat) : Byte := sbox (byteAt b (4 * ((c + r) % 4) + r))
    byteAt (aesRound b rk) (4 * c) = mul2 (a 0) ^^^ mul3 (a 1) ^^^ a 2 ^^^ a 3 ^^^ byteAt rk (4 * c) ∧
    byteAt (aesRound b rk) (4 * c + 1) =
      a 0 ^^^ mul2 (a 1) ^^^ mul3 (a 2) ^^^ a 3 ^^^ byteAt rk (4 * c + 1) ∧
    byteAt (aesRound b rk) (4 * c + 2) =
      a 0 ^^^ a 1 ^^^ mul2 (a 2) ^^^ mul3 (a 3) ^^^ byteAt rk (4 * c + 2) ∧
    byteAt (aesRound b rk) (4 * c + 3) =
      mul3 (a 0) ^^^ a 1 ^^^ a 2 ^^^ mul2 (a 3) ^^^ byteAt rk (4 * c + 3)

/-- R112, from general knowledge (log 13): the S-box is the affine map of the inverse in GF(2^8), `inv(0)` being 0. -/
def Obligations.SboxIsAffineOfInverse : Prop :=
  ∀ a : Byte,
    (a = 0 → sbox a = affine 0) ∧ (a ≠ 0 → ∃ b, gmul a b = 1 ∧ sbox a = affine b)

/-- R116, from general knowledge (log 13): `Z0` and `Z1`, byte 0 first. -/
def Obligations.ConstantsZ0AndZ1 : Prop :=
  toBytes Config.z0 16 = [0xcd, 0x65, 0xef, 0x23, 0x91, 0x44, 0x37, 0x71, 0x22, 0xae, 0x28, 0xd7, 0x98, 0x2f,
    0x8a, 0x42] ∧
  toBytes Config.z1 16 = [0xbc, 0xdb, 0x89, 0x81, 0xa5, 0xdb, 0xb5, 0xe9, 0x2f, 0x3b, 0x4d, 0xec, 0xcf, 0xfb,
    0xc0, 0xb5]

/-- R118: `Round`, every word from the old state. -/
def Obligations.RoundFromTheOldState : Prop :=
  ∀ (s : CipherState) (x0 x1 : W128),
    (round s x0 x1).s0 = s.s6 ^^^ s.s1 ∧
    (round s x0 x1).s1 = aesRound s.s0 0 ^^^ x0 ∧
    (round s x0 x1).s2 = aesRound s.s1 0 ^^^ s.s0 ∧
    (round s x0 x1).s3 = aesRound s.s2 0 ^^^ s.s6 ∧
    (round s x0 x1).s4 = aesRound s.s3 0 ^^^ x1 ∧
    (round s x0 x1).s5 = aesRound s.s4 0 ^^^ s.s3 ∧
    (round s x0 x1).s6 = aesRound s.s5 0 ^^^ s.s4

-- ---------------------------------------------------------------- composites and whole operations

/-- R134, which the spec derives from R131 to R133: INIT_LOAD, sixteen INIT_ROUND and INIT_WHITEN take 18 steps and leave `Init(KEY, NONCE)` in `S`,
whatever `DIR`, the lengths and the spaces are. -/
def Obligations.InitializationIsInit : Prop :=
  ∀ s : State, s.script = [] → s.phase = Phase.initLoad →
    run 18 s = .next { s with
      S := initState s.key s.nonce, rnd := 0, adpos := 0, mpos := 0, fail := false
      phase := adDispatch s.dir s.adlen 0 s.mlen 0 }

/-- R145, which the spec derives from R142 and R144: from the start of the AD phase, `ceil(ADLEN / 32)` steps leave `Absorb(S, ad)` in `S` and end
in the message dispatch; only `S`, `W`, `ADPOS` and `PHASE` change. -/
def Obligations.AdPhaseIsAbsorb : Prop :=
  ∀ s : State, s.script = [] → s.adpos = 0 → s.phase = adDispatch s.dir s.adlen 0 s.mlen s.mpos →
    ∃ w : W256, run (blockCount s.adlen.toNat) s = .next { s with
        S := absorb s.S s.adBytes, W := w, adpos := s.adlen, phase := msgDispatch s.dir s.mlen s.mpos }

/-- R175, which the spec derives from R172 and R174: from the start of finalization with `RND` = 0, 17 steps leave the tag of `Finalize` in `T`. -/
def Obligations.FinalizationIsFinalize : Prop :=
  ∀ s : State, s.script = [] → s.phase = Phase.finRound → s.rnd = 0 →
    run 17 s = .next { s with
      S := roundIter (lengthWord s.adlen) (lengthWord s.mlen) 16 s.S
      T := finalizeTag s.S s.adlen s.mlen
      phase := if s.dir then Phase.tagVerify else Phase.tagWrite }

/-- R206, R200, R201, which the spec derives from the rules of the micro-operations: an ENC, from the acceptance of its command to the end of its ZEROIZE step. It takes
`37 + ceil(ADLEN/32) + ceil(MLEN/32)` steps, is busy until the last, and then `OUT` holds `CT || tag` and no
other byte of `OUT` and nothing else of the machine has changed. -/
def Obligations.NetEffectOfEnc : Prop :=
  ∀ s : State, s.script = [] → s.phase = Phase.initLoad → s.dir = false → s.out.wf →
    (∀ k u, k < s.opSteps → run k s = .next u → u.phase ≠ Phase.idle) ∧
    ∃ t out, run s.opSteps s = .next t ∧
      t = { s with
        S := CipherState.zero, W := 0, T := 0, rnd := 0, adpos := 0, mpos := 0, done := true, err := 0
        fail := false, phase := Phase.idle, out := out } ∧
      status t = 0x02#8 ∧
      out.read 0 s.mlen.toNat = encBytes s.startState s.inBytes ∧
      out.read s.mlen.toNat 32 = toBytes s.encTag 32 ∧
      ∀ a, s.mlen.toNat + 32 ≤ a → out.get a = s.out.get a

/-- R207, R200, R201, which the spec derives from the rules of the micro-operations: a DEC, from the acceptance
of its command to the end of its ZEROIZE step. It takes 37 + ceil(ADLEN/32) + ceil(MLEN/32) steps and one more on a
mismatch, and is busy until the last. On a match `OUT` then holds the plaintext and `STATUS` is 0x12; on a
mismatch `OUT[0 .. MLEN-1]` is zero and `STATUS` is 0x16. No other byte of `OUT` and nothing else of the machine
has changed. -/
def Obligations.NetEffectOfDec : Prop :=
  ∀ s : State, s.script = [] → s.phase = Phase.initLoad → s.dir = true → s.out.wf →
    (∀ k u, k < (if s.decTag = s.suppliedTag then s.opSteps else s.opSteps + 1) → run k s = .next u →
      u.phase ≠ Phase.idle) ∧
    ∃ t out, run (if s.decTag = s.suppliedTag then s.opSteps else s.opSteps + 1) s = .next t ∧
      t = { s with
        S := CipherState.zero, W := 0, T := 0, rnd := 0, adpos := 0, mpos := 0, done := true
        err := if s.decTag = s.suppliedTag then 0#2 else 1#2
        fail := false, phase := Phase.idle, out := out } ∧
      (status t = if s.decTag = s.suppliedTag then 0x12#8 else 0x16#8) ∧
      (s.decTag = s.suppliedTag → out.read 0 s.mlen.toNat = decBytes s.startState s.inBytes) ∧
      (s.decTag ≠ s.suppliedTag → ∀ a, a < s.mlen.toNat → out.get a = 0) ∧
      ∀ a, s.mlen.toNat ≤ a → out.get a = s.out.get a

/-- R208, which the spec derives from R155, R165, R206 and R207: the DEC of the output of an ENC, with the same key, nonce, associated data and lengths, ends with
`STATUS` = 0x12 and the plaintext in `OUT`. -/
def Obligations.DecryptOfEncryptIsPlaintext : Prop :=
  ∀ s t u : State,
    s.script = [] → s.phase = Phase.initLoad → s.dir = false → s.out.wf → run s.opSteps s = .next t →
    u.script = [] → u.phase = Phase.initLoad → u.dir = true → u.out.wf →
    u.key = s.key → u.nonce = s.nonce → u.adlen = s.adlen → u.mlen = s.mlen → u.adBytes = s.adBytes →
    u.inp.read 0 (u.mlen.toNat + 32) = t.out.read 0 (s.mlen.toNat + 32) →
    ∃ v, run u.opSteps u = .next v ∧ status v = 0x12#8 ∧ v.out.read 0 u.mlen.toNat = s.inBytes

-- ---------------------------------------------------------------- the machine as a whole

/-- R41, R43: the state after reset meets the invariant. -/
def Obligations.ResetMeetsTheInvariant : Prop := Inv State.reset

/-- R43, R27, R28, R29, R35, R25 and the preconditions the dispatch guarantees, R43, R28 and R35 being marked as
derived by the spec: every step, of the core and of the host, keeps the invariant. -/
def Obligations.EveryStepKeepsTheInvariant : Prop :=
  ∀ s t : State, Inv s → step s = .next t → Inv t

/-- R63 and R223, which the spec derives; the refusal is the model's (log 8): under the invariant no step faults, and a step is refused only where the host's next line
touches a space while `BUSY` = 1. -/
def Obligations.NoStepFaultsUnderTheInvariant : Prop :=
  ∀ s : State, Inv s →
    (∀ f, step s ≠ .fault f) ∧
    (∀ r, step s = .refused r → s.phase ≠ Phase.idle ∧
      ∃ rest, (∃ sp a bs, s.script = .fill sp a bs :: rest) ∨ (∃ a n, s.script = .dump a n :: rest))

/-- R43, which the spec derives from R41 and R205: the idle invariant is kept by every step from every state that meets it, reachable or not. -/
def Obligations.IdleCoreHoldsNoSecret : Prop :=
  ∀ s t : State, IdleClean s → step s = .next t → IdleClean t

/-- R198: only the acceptance of ENC or DEC leaves IDLE. -/
def Obligations.OnlyEncOrDecLeavesIdle : Prop :=
  ∀ s t : State, s.phase = Phase.idle → step s = .next t → t.phase ≠ Phase.idle →
    ∃ c rest, s.script = .wr (.cmd c) :: rest ∧ (c = 0x01#8 ∨ c = 0x02#8) ∧ t.phase = Phase.initLoad

/-- R205, R195, R251: an operation ends only in ZEROIZE or by a reset. -/
def Obligations.OnlyZeroizeOrResetReachesIdle : Prop :=
  ∀ s t : State, s.phase ≠ Phase.idle → step s = .next t → t.phase = Phase.idle →
    s.phase = Phase.zeroize ∨ ∃ rest, s.script = .reset :: rest

/-- R199, which the spec derives from the rules of the micro-operations: the successor of a core step, and the counters, depend on the public control values alone, and at
TAG_VERIFY on the one-bit verdict. -/
def Obligations.ControlFlowIsPublic : Prop :=
  ∀ s u t v : State, s.script = [] → u.script = [] → SamePublicControl s u →
    (s.phase = Phase.tagVerify → s.verdict = u.verdict) →
    step s = .next t → step u = .next v → SamePublicControl t v

/-- R228, R186: no host register read tells two states apart that differ only in `KEY`, `S`, `W`, `T`, `RND`,
`ADPOS`, `MPOS`, `FAIL` and in which micro-operation of an operation in flight is next. -/
def Obligations.RegisterReadsHideSecrets : Prop :=
  ∀ (s u : State) (r : HostReg),
    busy s = busy u → s.nonce = u.nonce → s.adlen = u.adlen → s.mlen = u.mlen → s.done = u.done →
    s.err = u.err → s.dir = u.dir → readReg r s = readReg r u

/-- R62, which the spec derives from the rules of the micro-operations: a core step never writes `AD`, `IN`, `KEY`, `NONCE`, `ADLEN` or `MLEN`, and writes `OUT`
only inside `OUT[0 .. MLEN+31]`, and only below `MLEN` for a DEC. -/
def Obligations.CoreWritesOnlyItsOutput : Prop :=
  ∀ s t : State, Inv s → s.script = [] → step s = .next t →
    t.ad = s.ad ∧ t.inp = s.inp ∧ t.key = s.key ∧ t.nonce = s.nonce ∧ t.adlen = s.adlen ∧
    t.mlen = s.mlen ∧
    (∀ a, s.mlen.toNat + 32 ≤ a → t.out.get a = s.out.get a) ∧
    (s.dir = true → ∀ a, s.mlen.toNat ≤ a → t.out.get a = s.out.get a)

/-- R62, derived by the spec: no core step reads `OUT`. Two states that differ only there step to states that
differ only there; every byte the step writes has the same value in both, and every other byte of `OUT` is the
one each state held before. -/
def Obligations.CoreNeverReadsOut : Prop :=
  ∀ (s t : State) (m : Memory), s.script = [] → s.out.wf → m.wf → step s = .next t →
    ∃ out : Memory, step { s with out := m } = .next { t with out := out } ∧
      (∀ a, WritesOut s a → out.get a = t.out.get a) ∧
      ∀ a, ¬ WritesOut s a → out.get a = m.get a ∧ t.out.get a = s.out.get a

/-- R62, derived by the spec, and R72: no core step reads `AD` at or past `ADLEN`, or `IN` at or past `MLEN` for an ENC and past the
tag for a DEC: two states that agree on the bytes below step to states that agree on everything but the
two spaces. -/
def Obligations.CoreReadsOnlyItsInput : Prop :=
  ∀ (s t : State) (ad inp : Memory), Inv s → s.script = [] → step s = .next t →
    (∀ a, a < s.adlen.toNat → ad.get a = s.ad.get a) →
    (∀ a, a < s.mlen.toNat + (if s.dir then 32 else 0) → inp.get a = s.inp.get a) →
    step { s with ad := ad, inp := inp } = .next { t with ad := ad, inp := inp }
end

