-- ==== Sys2Proof/Laws/Bytes.lean ====
section
/-! SUPPORT. The laws of byte strings held as bit vectors: each byte of an assembled operand (00_scope.md R8,
R9; 30_encoding.md R98), and the comparison of two tags (46_tag_verification.md R181). -/

namespace Sys2Proof.Machine

theorem byteAt_getLsbD {n : Nat} (v : BitVec n) (i j : Nat) :
    (byteAt v i).getLsbD j = (decide (j < 8) && v.getLsbD (8 * i + j)) := by
  simp [byteAt]

/-- Two values with the same bytes are equal. -/
theorem eq_of_bytes {n k : Nat} (hn : n = 8 * k) {v w : BitVec n}
    (h : ∀ i, i < k → byteAt v i = byteAt w i) : v = w := by
  refine BitVec.eq_of_getLsbD_eq fun i hi => ?_
  have h1 := congrArg (fun b : Byte => b.getLsbD (i % 8)) (h (i / 8) (by omega))
  simp only [byteAt_getLsbD, Nat.mod_lt i (by decide : 0 < 8), decide_true, Bool.true_and,
    Nat.div_add_mod] at h1
  exact h1

@[simp] theorem byteAt_xor {n : Nat} (v w : BitVec n) (i : Nat) :
    byteAt (v ^^^ w) i = byteAt v i ^^^ byteAt w i := by
  refine BitVec.eq_of_getLsbD_eq fun j hj => ?_
  simp only [BitVec.getLsbD_xor, byteAt_getLsbD, hj, decide_true, Bool.true_and]

@[simp] theorem byteAt_zero {n : Nat} (i : Nat) : byteAt 0#n i = 0x00#8 := by
  refine BitVec.eq_of_getLsbD_eq fun j hj => ?_
  simp only [byteAt_getLsbD, BitVec.getLsbD_zero, Bool.and_false]

/-- Byte `i` of an assembled value is byte `i` of the string, 0x00 past its end (R8). -/
theorem byteAt_ofBytes {n : Nat} (bs : List Byte) (i : Nat) (hi : 8 * i + 8 ≤ n) :
    byteAt (ofBytes n bs) i = bs.getD i 0x00#8 := by
  induction bs generalizing i with
  | nil => simp [ofBytes]
  | cons b bs ih =>
    refine BitVec.eq_of_getLsbD_eq fun j hj => ?_
    rw [byteAt_getLsbD]
    cases i with
    | zero =>
      have h1 : j < n := by omega
      have h2 : j < 8 := hj
      simp [ofBytes, h1, h2]
    | succ i =>
      have h1 : 8 * (i + 1) + j < n := by omega
      have h2 : ¬ (8 * (i + 1) + j < 8) := by omega
      have h3 : 8 * (i + 1) + j - 8 = 8 * i + j := by omega
      have h4 := congrArg (fun b : Byte => b.getLsbD j) (ih i (by omega))
      simp only [byteAt_getLsbD, hj, decide_true, Bool.true_and] at h4
      simp only [ofBytes, BitVec.getLsbD_or, BitVec.getLsbD_setWidth, BitVec.getLsbD_shiftLeft, h1, h2, h3,
        decide_true, decide_false, Bool.true_and, Bool.not_false, List.getD_cons_succ, hj, ← h4]
      rw [BitVec.getLsbD_of_ge b _ (by omega)]
      simp

@[simp] theorem length_toBytes {n : Nat} (v : BitVec n) (k : Nat) : (toBytes v k).length = k := by
  simp [toBytes]

@[simp] theorem getElem_toBytes {n : Nat} (v : BitVec n) (k i : Nat) (h : i < (toBytes v k).length) :
    (toBytes v k)[i] = byteAt v i := by
  simp [toBytes]

theorem length_pad32 {b : List Byte} (h : b.length ≤ 32) : (pad32 b).length = 32 := by
  simp [pad32, Config.blockBytes]; omega

/-- Byte `i` of a zero-padded block (R98). -/
theorem byteAt_block (b : List Byte) (i : Nat) (hi : i < 32) : byteAt (block b) i = b.getD i 0x00#8 := by
  rw [block, byteAt_ofBytes _ _ (by omega), pad32]
  by_cases h : i < b.length
  · simp [List.getD_eq_getElem?_getD, List.getElem?_append_left h]
  · simp only [List.getD_eq_getElem?_getD, List.getElem?_append_right (Nat.le_of_not_lt h),
      List.getElem?_eq_none (Nat.le_of_not_lt h), Option.getD_none]
    by_cases h2 : i - b.length < 32 - b.length
    · simp [h2]
    · omega

theorem lo_getLsbD (w : W256) (j : Nat) : (lo w).getLsbD j = (decide (j < 128) && w.getLsbD j) := by
  rw [lo, BitVec.getLsbD_extractLsb', Nat.zero_add]

theorem hi_getLsbD (w : W256) (j : Nat) : (hi w).getLsbD j = (decide (j < 128) && w.getLsbD (128 + j)) := by
  rw [hi, BitVec.getLsbD_extractLsb']

theorem cat_getLsbD (a b : W128) (j : Nat) :
    (cat a b).getLsbD j = if j < 128 then a.getLsbD j else b.getLsbD (j - 128) :=
  BitVec.getLsbD_append

theorem byteAt_lo (w : W256) (i : Nat) (hi : i < 16) : byteAt (lo w) i = byteAt w i := by
  refine BitVec.eq_of_getLsbD_eq fun j hj => ?_
  have h : 8 * i + j < 128 := by omega
  simp only [byteAt_getLsbD, lo_getLsbD, h, decide_true, Bool.true_and]

theorem byteAt_hi (w : W256) (i : Nat) (h16 : i < 16) : byteAt (hi w) i = byteAt w (16 + i) := by
  refine BitVec.eq_of_getLsbD_eq fun j hj => ?_
  have h : 8 * i + j < 128 := by omega
  have h2 : 128 + (8 * i + j) = 8 * (16 + i) + j := by omega
  simp only [byteAt_getLsbD, hi_getLsbD, h, h2, decide_true, Bool.true_and]

@[simp] theorem lo_cat (a b : W128) : lo (cat a b) = a := by
  refine BitVec.eq_of_getLsbD_eq fun j hj => ?_
  simp only [lo_getLsbD, cat_getLsbD, hj, decide_true, Bool.true_and, if_true]

@[simp] theorem hi_cat (a b : W128) : hi (cat a b) = b := by
  refine BitVec.eq_of_getLsbD_eq fun j hj => ?_
  have h : ¬ 128 + j < 128 := by omega
  simp only [hi_getLsbD, cat_getLsbD, hj, h, decide_true, Bool.true_and, if_false, Nat.add_sub_cancel_left]

@[simp] theorem cat_lo_hi (w : W256) : cat (lo w) (hi w) = w := by
  refine BitVec.eq_of_getLsbD_eq fun j hj => ?_
  rw [cat_getLsbD]
  split
  · rename_i h
    simp only [lo_getLsbD, h, decide_true, Bool.true_and]
  · have h2 : j - 128 < 128 := by omega
    have h3 : 128 + (j - 128) = j := by omega
    simp only [hi_getLsbD, h2, h3, decide_true, Bool.true_and]

/-- Bytes 0 to 15 of `a || b` are those of `a` (R9). -/
theorem byteAt_cat_low (a b : W128) (i : Nat) (hi : i < 16) : byteAt (cat a b) i = byteAt a i := by
  rw [← byteAt_lo _ _ hi, lo_cat]

/-- Bytes 16 to 31 of `a || b` are those of `b` (R9). -/
theorem byteAt_cat_high (a b : W128) (i : Nat) (hi : i < 16) : byteAt (cat a b) (16 + i) = byteAt b i := by
  rw [← byteAt_hi _ _ hi, hi_cat]

/-- A 32-byte value is the block of its bytes. -/
theorem block_toBytes (w : W256) : block (toBytes w 32) = w := by
  refine eq_of_bytes (k := 32) rfl fun i hi => ?_
  rw [byteAt_block _ _ hi, List.getD_eq_getElem _ _ (by simpa using hi), getElem_toBytes]

/-- The real bytes of a padded block are the string. -/
theorem toBytes_block {b : List Byte} (h : b.length ≤ 32) : toBytes (block b) b.length = b := by
  refine List.ext_getElem (by simp) fun i h1 h2 => ?_
  rw [getElem_toBytes, byteAt_block _ _ (by omega), List.getD_eq_getElem _ _ h2]

/-- Byte `i` of a block of which `n` bytes are kept (R164). -/
theorem byteAt_keepBytes (w : W256) (n i : Nat) (hi : i < 32) :
    byteAt (keepBytes w n) i = if i < n then byteAt w i else 0x00#8 := by
  rw [keepBytes, byteAt_block _ _ hi]
  split
  · rename_i h
    rw [List.getD_eq_getElem _ _ (by simpa using h), getElem_toBytes]
  · rename_i h
    rw [List.getD_eq_default _ _ (by simpa using h)]

/-- Keeping all 32 bytes keeps the block. -/
theorem keepBytes_all (w : W256) : keepBytes w 32 = w := block_toBytes w

/-- Byte `i` of a block XORed with the keystream (R152, R154). -/
theorem byteAt_cipherBlock (s : CipherState) (b : W256) (i : Nat) (hi : i < 32) :
    byteAt (cipherBlock s b) i = byteAt (ks s) i ^^^ byteAt b i := by
  unfold cipherBlock ks
  by_cases h : i < 16
  · rw [byteAt_cat_low _ _ _ h, byteAt_cat_low _ _ _ h, byteAt_xor, byteAt_lo _ _ h]
  · obtain ⟨j, rfl⟩ : ∃ j, i = 16 + j := ⟨i - 16, by omega⟩
    have hj : j < 16 := by omega
    rw [byteAt_cat_high _ _ _ hj, byteAt_cat_high _ _ _ hj, byteAt_xor, byteAt_hi _ _ hj]

/-- XORing with the same keystream twice gives the block back (R117, R155). -/
theorem cipherBlock_cipherBlock (s : CipherState) (b : W256) : cipherBlock s (cipherBlock s b) = b := by
  simp [cipherBlock]

/-- OR of bytes is zero only where both are. -/
theorem or_eq_zero_byte {a b : Byte} : a ||| b = 0x00#8 ↔ a = 0x00#8 ∧ b = 0x00#8 := by
  rw [BitVec.or_eq_zero_iff]

/-- The accumulated difference of R181 is zero only where it was zero and every byte pair is equal. -/
theorem foldl_diff_eq_zero (f : Nat → Byte) (l : List Nat) (acc : Byte) :
    l.foldl (fun acc i => acc ||| f i) acc = 0x00#8 ↔ acc = 0x00#8 ∧ ∀ i ∈ l, f i = 0x00#8 := by
  induction l generalizing acc with
  | nil => simp
  | cons i l ih => rw [List.foldl_cons, ih, or_eq_zero_byte, List.forall_mem_cons, and_assoc]

end Sys2Proof.Machine
end

