-- ==== Sys2Proof/Laws/Memory.lean ====
section
/-! SUPPORT. The laws of an address space: read after write, every other byte unchanged, and the canonical
form is kept (20_memory.md R64, R65; 46_tag_verification.md R184). -/

namespace Sys2Proof.Machine

@[simp] theorem Memory.get_nil (a : Nat) : Memory.get [] a = Config.unlistedByte := rfl

theorem Memory.wf_nil : Memory.wf [] := by simp [Memory.wf]

/-- The tail of a canonical list is canonical. -/
theorem Memory.wf_tail {c : Host.Cell} {m : Memory} (h : Memory.wf (c :: m)) : m.wf :=
  ⟨(List.pairwise_cons.1 h.1).2, fun d hd => h.2 d (List.mem_cons_of_mem _ hd)⟩

/-- Every entry after the first has a higher address. -/
theorem Memory.wf_head_lt {c : Host.Cell} {m : Memory} (h : Memory.wf (c :: m)) :
    ∀ d ∈ m, c.1 < d.1 := (List.pairwise_cons.1 h.1).1

/-- An address below every entry reads as an unlisted byte. -/
theorem Memory.get_below {m : Memory} {a : Nat} (h : ∀ d ∈ m, a < d.1) :
    m.get a = Config.unlistedByte := by
  cases m with
  | nil => rfl
  | cons c m => simp [Memory.get, h c (List.mem_cons_self ..)]

theorem Memory.get_entry_same {m : Memory} {a : Nat} (v : Byte) (h : ∀ d ∈ m, a < d.1) :
    (Memory.entry a v m).get a = v := by
  unfold Memory.entry
  split
  · rename_i hv; rw [Memory.get_below h, hv]
  · simp [Memory.get]

theorem Memory.get_entry_other {m : Memory} {a b : Nat} (v : Byte) (h : ∀ d ∈ m, a < d.1) (hab : b ≠ a) :
    (Memory.entry a v m).get b = m.get b := by
  unfold Memory.entry
  split
  · rfl
  · by_cases hlt : b < a
    · have hb : ∀ d ∈ m, b < d.1 := fun d hd => lt_trans hlt (h d hd)
      rw [Memory.get_below hb]
      simp [Memory.get, hlt]
    · simp [Memory.get, hlt, hab]

theorem Memory.wf_entry {m : Memory} {a : Nat} (v : Byte) (hm : m.wf) (h : ∀ d ∈ m, a < d.1) :
    (Memory.entry a v m).wf := by
  unfold Memory.entry
  split
  · exact hm
  · rename_i hv
    refine ⟨List.pairwise_cons.2 ⟨h, hm.1⟩, fun d hd => ?_⟩
    rcases List.mem_cons.1 hd with rfl | hd
    · exact hv
    · exact hm.2 d hd

/-- An entry of a list after one byte is stored is the stored one or an old one. -/
theorem Memory.mem_set {m : Memory} {a : Nat} {v : Byte} {d : Host.Cell} (hd : d ∈ m.set a v) :
    d = (a, v) ∨ d ∈ m := by
  induction m with
  | nil =>
    unfold Memory.set Memory.entry at hd
    split at hd <;> simp_all
  | cons c m ih =>
    unfold Memory.set at hd
    split at hd
    · unfold Memory.entry at hd
      split at hd
      · exact .inr hd
      · rcases List.mem_cons.1 hd with rfl | hd
        · exact .inl rfl
        · exact .inr hd
    · split at hd
      · unfold Memory.entry at hd
        split at hd
        · exact .inr (List.mem_cons_of_mem _ hd)
        · rcases List.mem_cons.1 hd with rfl | hd
          · exact .inl rfl
          · exact .inr (List.mem_cons_of_mem _ hd)
      · rcases List.mem_cons.1 hd with rfl | hd
        · exact .inr (List.mem_cons_self ..)
        · rcases ih hd with h | h
          · exact .inl h
          · exact .inr (List.mem_cons_of_mem _ h)

/-- Storing a byte keeps the canonical form. -/
theorem Memory.wf_set {m : Memory} (hm : m.wf) (a : Nat) (v : Byte) : (m.set a v).wf := by
  induction m with
  | nil => exact Memory.wf_entry v hm (by simp)
  | cons c m ih =>
    have hlt := Memory.wf_head_lt hm
    unfold Memory.set
    split
    · rename_i h
      refine Memory.wf_entry v hm fun d hd => ?_
      rcases List.mem_cons.1 hd with rfl | hd
      · exact h
      · exact lt_trans h (hlt d hd)
    · split
      · rename_i h
        exact Memory.wf_entry v (Memory.wf_tail hm) (h ▸ hlt)
      · rename_i h1 h2
        have ih' := ih (Memory.wf_tail hm)
        refine ⟨List.pairwise_cons.2 ⟨fun d hd => ?_, ih'.1⟩, fun d hd => ?_⟩
        · rcases Memory.mem_set hd with rfl | hd
          · simp only; omega
          · exact hlt d hd
        · rcases List.mem_cons.1 hd with rfl | hd
          · exact hm.2 _ (List.mem_cons_self ..)
          · exact ih'.2 d hd

/-- Reading the byte just stored gives it. -/
theorem Memory.get_set_same {m : Memory} (hm : m.wf) (a : Nat) (v : Byte) : (m.set a v).get a = v := by
  induction m with
  | nil => exact Memory.get_entry_same v (by simp)
  | cons c m ih =>
    have hlt := Memory.wf_head_lt hm
    unfold Memory.set
    split
    · rename_i h
      refine Memory.get_entry_same v fun d hd => ?_
      rcases List.mem_cons.1 hd with rfl | hd
      · exact h
      · exact lt_trans h (hlt d hd)
    · split
      · rename_i h
        exact Memory.get_entry_same v (h ▸ hlt)
      · rename_i h1 h2
        simp [Memory.get, h1, h2, ih (Memory.wf_tail hm)]

/-- Storing a byte leaves every other byte alone. -/
theorem Memory.get_set_other {m : Memory} (hm : m.wf) {a b : Nat} (v : Byte) (hab : b ≠ a) :
    (m.set a v).get b = m.get b := by
  induction m with
  | nil => exact Memory.get_entry_other v (by simp) hab
  | cons c m ih =>
    have hlt := Memory.wf_head_lt hm
    unfold Memory.set
    split
    · rename_i h
      refine Memory.get_entry_other v (fun d hd => ?_) hab
      rcases List.mem_cons.1 hd with rfl | hd
      · exact h
      · exact lt_trans h (hlt d hd)
    · split
      · rename_i h
        rw [Memory.get_entry_other v (h ▸ hlt) hab]
        by_cases hb : b < c.1
        · rw [Memory.get_below fun d hd => lt_trans hb (hlt d hd)]
          simp [Memory.get, hb]
        · simp [Memory.get, hb, h ▸ hab]
      · simp [Memory.get, ih (Memory.wf_tail hm)]

/-- Reading a byte after one byte is stored. -/
theorem Memory.get_set {m : Memory} (hm : m.wf) (a b : Nat) (v : Byte) :
    (m.set a v).get b = if b = a then v else m.get b := by
  split
  · rename_i h; rw [h, Memory.get_set_same hm]
  · rename_i h; exact Memory.get_set_other hm v h

/-- `MemWrite` keeps the canonical form. -/
theorem Memory.wf_write {m : Memory} (hm : m.wf) (a : Nat) (bs : List Byte) : (m.write a bs).wf := by
  induction bs generalizing m a with
  | nil => exact hm
  | cons b bs ih => exact ih (Memory.wf_set hm a b) (a + 1)

/-- What `MemWrite` does: byte `i` of the string at `addr + i`, every other byte unchanged (R65). -/
theorem Memory.get_write {m : Memory} (hm : m.wf) (a : Nat) (bs : List Byte) (b : Nat) :
    (m.write a bs).get b = if h : a ≤ b ∧ b < a + bs.length then bs[b - a]'(by omega) else m.get b := by
  induction bs generalizing m a with
  | nil => simp [Memory.write]
  | cons v bs ih =>
    rw [Memory.write, ih (Memory.wf_set hm a v), Memory.get_set hm]
    by_cases h1 : b = a
    · subst h1; simp
    · by_cases h2 : a ≤ b ∧ b < a + (v :: bs).length
      · have h3 : a + 1 ≤ b ∧ b < a + 1 + bs.length := by
          simp only [List.length_cons] at h2; omega
        rw [dif_pos h3, dif_pos h2]
        have h4 : b - a = (b - (a + 1)) + 1 := by omega
        simp [h4]
      · have h3 : ¬(a + 1 ≤ b ∧ b < a + 1 + bs.length) := by
          simp only [List.length_cons] at h2; omega
        rw [dif_neg h3, dif_neg h2, if_neg h1]

/-- A byte inside the written range reads as the byte written there. -/
theorem Memory.get_write_inside {m : Memory} (hm : m.wf) (a : Nat) (bs : List Byte) {i : Nat}
    (hi : i < bs.length) : (m.write a bs).get (a + i) = bs[i] := by
  rw [Memory.get_write hm, dif_pos ⟨by omega, by omega⟩]
  simp

/-- A byte outside the written range is unchanged. -/
theorem Memory.get_write_outside {m : Memory} (hm : m.wf) (a : Nat) (bs : List Byte) {b : Nat}
    (hb : b < a ∨ a + bs.length ≤ b) : (m.write a bs).get b = m.get b := by
  rw [Memory.get_write hm, dif_neg (by omega)]

@[simp] theorem Memory.length_read (m : Memory) (a n : Nat) : (m.read a n).length = n := by
  simp [Memory.read]

/-- `MemRead` returns the bytes of the space (R64). -/
theorem Memory.getElem_read (m : Memory) (a n i : Nat) (h : i < (m.read a n).length) :
    (m.read a n)[i] = m.get (a + i) := by
  simp [Memory.read]

/-- Reading back what was just written. -/
theorem Memory.read_write {m : Memory} (hm : m.wf) (a : Nat) (bs : List Byte) :
    (m.write a bs).read a bs.length = bs := by
  refine List.ext_getElem (by simp) fun i h1 h2 => ?_
  rw [Memory.getElem_read, Memory.get_write_inside hm a bs h2]

/-- Two spaces with the same bytes in a range read the same there. -/
theorem Memory.read_congr {m m' : Memory} {a a' n : Nat} (h : ∀ i, i < n → m.get (a + i) = m'.get (a' + i)) :
    m.read a n = m'.read a' n := by
  refine List.ext_getElem (by simp) fun i h1 h2 => ?_
  rw [Memory.getElem_read, Memory.getElem_read, h i (by simpa using h1)]

/-- A longer read is two reads in a row. -/
theorem Memory.read_append (m : Memory) (a n k : Nat) : m.read a (n + k) = m.read a n ++ m.read (a + n) k := by
  refine List.ext_getElem (by simp) fun i h1 h2 => ?_
  rw [Memory.getElem_read, List.getElem_append]
  split
  · rw [Memory.getElem_read]
  · rename_i h
    simp only [Memory.length_read, not_lt] at h
    rw [Memory.getElem_read]
    simp only [Memory.length_read]
    congr 1
    omega

/-- OUT_WIPE's erasure keeps the canonical form. -/
theorem Memory.wf_wipe {m : Memory} (hm : m.wf) (n : Nat) : (m.wipe n).wf :=
  ⟨hm.1.filter _, fun d hd => hm.2 d (List.mem_filter.1 hd).1⟩

/-- What the erasure does: 0x00 below `n`, every other byte unchanged (R184). -/
theorem Memory.get_wipe {m : Memory} (hm : m.wf) (n b : Nat) :
    (m.wipe n).get b = if b < n then 0x00#8 else m.get b := by
  induction m with
  | nil => simp [Memory.wipe]
  | cons c m ih =>
    have hlt := Memory.wf_head_lt hm
    have ih' := ih (Memory.wf_tail hm)
    unfold Memory.wipe at ih' ⊢
    by_cases hc : n ≤ c.1
    · rw [List.filter_cons_of_pos (by simpa using hc)]
      simp only [Memory.get]
      by_cases h1 : b < c.1
      · simp [h1]
      · by_cases h2 : b = c.1
        · have h3 : ¬ c.1 < n := by omega
          simp [h2, h3]
        · simp only [h1, h2, if_false]
          exact ih'
    · rw [List.filter_cons_of_neg (by simpa using hc), ih']
      by_cases h1 : b < n
      · simp [h1]
      · have h2 : ¬ b < c.1 := by omega
        have h3 : b ≠ c.1 := by omega
        simp [h1, Memory.get, h2, h3]

/-- Two canonical lists with the same bytes are the same list. -/
theorem Memory.ext_get {m m' : Memory} (hm : m.wf) (hm' : m'.wf) (h : ∀ a, m.get a = m'.get a) : m = m' := by
  induction m generalizing m' with
  | nil =>
    cases m' with
    | nil => rfl
    | cons c m' =>
      have h1 := h c.1
      simp [Memory.get] at h1
      exact absurd h1.symm (hm'.2 c (List.mem_cons_self ..))
  | cons c m ih =>
    cases m' with
    | nil =>
      have h1 := h c.1
      simp [Memory.get] at h1
      exact absurd h1 (hm.2 c (List.mem_cons_self ..))
    | cons d m' =>
      have hcd : c.1 = d.1 := by
        rcases Nat.lt_trichotomy c.1 d.1 with hlt | heq | hgt
        · have h1 := h c.1
          simp [Memory.get, hlt] at h1
          exact absurd h1 (hm.2 c (List.mem_cons_self ..))
        · exact heq
        · have h1 := h d.1
          simp [Memory.get, hgt] at h1
          exact absurd h1.symm (hm'.2 d (List.mem_cons_self ..))
      have hv : c.2 = d.2 := by
        have h1 := h c.1
        simpa [Memory.get, hcd] using h1
      have htl : m = m' := by
        refine ih (Memory.wf_tail hm) (Memory.wf_tail hm') fun a => ?_
        by_cases h1 : a ≤ c.1
        · rw [Memory.get_below fun e he => lt_of_le_of_lt h1 (Memory.wf_head_lt hm e he),
            Memory.get_below fun e he => lt_of_le_of_lt (hcd ▸ h1) (Memory.wf_head_lt hm' e he)]
        · have h2 := h a
          have h3 : ¬ a < c.1 := by omega
          have h4 : a ≠ c.1 := by omega
          simpa [Memory.get, h3, h4, ← hcd] using h2
      rw [htl, Prod.ext hcd hv]

/-- The loop of byte writes of R184 keeps the canonical form. -/
theorem Memory.wf_wipeLoop {m : Memory} (hm : m.wf) (n : Nat) : (m.wipeLoop n).wf := by
  induction n with
  | zero => exact hm
  | succ n ih => exact Memory.wf_set ih n _

/-- What the loop of byte writes of R184 does. -/
theorem Memory.get_wipeLoop {m : Memory} (hm : m.wf) (n b : Nat) :
    (m.wipeLoop n).get b = if b < n then 0x00#8 else m.get b := by
  induction n with
  | zero => simp [Memory.wipeLoop]
  | succ n ih =>
    rw [Memory.wipeLoop, Memory.get_set (Memory.wf_wipeLoop hm n), ih]
    by_cases h1 : b = n
    · simp [h1]
    · by_cases h2 : b < n
      · simp [h1, h2, Nat.lt_succ_of_lt h2]
      · have h3 : ¬ b < n + 1 := by omega
        simp [h1, h2, h3]

/-- The erasure is the loop of byte writes of R184. -/
theorem Memory.wipe_eq_wipeLoop {m : Memory} (hm : m.wf) (n : Nat) : m.wipe n = m.wipeLoop n :=
  Memory.ext_get (Memory.wf_wipe hm n) (Memory.wf_wipeLoop hm n) fun a => by
    rw [Memory.get_wipe hm, Memory.get_wipeLoop hm]

end Sys2Proof.Machine
end

