-- ==== Sys2Proof/Laws/State.lean ====
section
/-! SUPPORT. One lemma per field per named update of State, true by rfl, and what `busy` and `acceptCommand` say
in each case. -/

namespace Sys2Proof.Machine

-- raise: the two conditions (R221, R222)
@[simp] theorem raise_authFail_S (s : State) : (raise .authFail s).S = s.S := rfl
@[simp] theorem raise_authFail_W (s : State) : (raise .authFail s).W = s.W := rfl
@[simp] theorem raise_authFail_T (s : State) : (raise .authFail s).T = s.T := rfl
@[simp] theorem raise_authFail_phase (s : State) : (raise .authFail s).phase = Phase.outWipe := rfl
@[simp] theorem raise_authFail_rnd (s : State) : (raise .authFail s).rnd = s.rnd := rfl
@[simp] theorem raise_authFail_adpos (s : State) : (raise .authFail s).adpos = s.adpos := rfl
@[simp] theorem raise_authFail_mpos (s : State) : (raise .authFail s).mpos = s.mpos := rfl
@[simp] theorem raise_authFail_fail (s : State) : (raise .authFail s).fail = true := rfl
@[simp] theorem raise_authFail_key (s : State) : (raise .authFail s).key = s.key := rfl
@[simp] theorem raise_authFail_nonce (s : State) : (raise .authFail s).nonce = s.nonce := rfl
@[simp] theorem raise_authFail_adlen (s : State) : (raise .authFail s).adlen = s.adlen := rfl
@[simp] theorem raise_authFail_mlen (s : State) : (raise .authFail s).mlen = s.mlen := rfl
@[simp] theorem raise_authFail_done (s : State) : (raise .authFail s).done = s.done := rfl
@[simp] theorem raise_authFail_err (s : State) : (raise .authFail s).err = s.err := rfl
@[simp] theorem raise_authFail_dir (s : State) : (raise .authFail s).dir = s.dir := rfl
@[simp] theorem raise_authFail_ad (s : State) : (raise .authFail s).ad = s.ad := rfl
@[simp] theorem raise_authFail_inp (s : State) : (raise .authFail s).inp = s.inp := rfl
@[simp] theorem raise_authFail_out (s : State) : (raise .authFail s).out = s.out := rfl
@[simp] theorem raise_authFail_script (s : State) : (raise .authFail s).script = s.script := rfl
@[simp] theorem raise_authFail_readData (s : State) : (raise .authFail s).readData = s.readData := rfl
@[simp] theorem raise_illegalCmd_S (s : State) : (raise .illegalCmd s).S = s.S := rfl
@[simp] theorem raise_illegalCmd_W (s : State) : (raise .illegalCmd s).W = s.W := rfl
@[simp] theorem raise_illegalCmd_T (s : State) : (raise .illegalCmd s).T = s.T := rfl
@[simp] theorem raise_illegalCmd_phase (s : State) : (raise .illegalCmd s).phase = s.phase := rfl
@[simp] theorem raise_illegalCmd_rnd (s : State) : (raise .illegalCmd s).rnd = s.rnd := rfl
@[simp] theorem raise_illegalCmd_adpos (s : State) : (raise .illegalCmd s).adpos = s.adpos := rfl
@[simp] theorem raise_illegalCmd_mpos (s : State) : (raise .illegalCmd s).mpos = s.mpos := rfl
@[simp] theorem raise_illegalCmd_fail (s : State) : (raise .illegalCmd s).fail = s.fail := rfl
@[simp] theorem raise_illegalCmd_key (s : State) : (raise .illegalCmd s).key = s.key := rfl
@[simp] theorem raise_illegalCmd_nonce (s : State) : (raise .illegalCmd s).nonce = s.nonce := rfl
@[simp] theorem raise_illegalCmd_adlen (s : State) : (raise .illegalCmd s).adlen = s.adlen := rfl
@[simp] theorem raise_illegalCmd_mlen (s : State) : (raise .illegalCmd s).mlen = s.mlen := rfl
@[simp] theorem raise_illegalCmd_done (s : State) : (raise .illegalCmd s).done = false := rfl
@[simp] theorem raise_illegalCmd_err (s : State) : (raise .illegalCmd s).err = 2#2 := rfl
@[simp] theorem raise_illegalCmd_dir (s : State) : (raise .illegalCmd s).dir = s.dir := rfl
@[simp] theorem raise_illegalCmd_ad (s : State) : (raise .illegalCmd s).ad = s.ad := rfl
@[simp] theorem raise_illegalCmd_inp (s : State) : (raise .illegalCmd s).inp = s.inp := rfl
@[simp] theorem raise_illegalCmd_out (s : State) : (raise .illegalCmd s).out = s.out := rfl
@[simp] theorem raise_illegalCmd_script (s : State) : (raise .illegalCmd s).script = s.script := rfl
@[simp] theorem raise_illegalCmd_readData (s : State) : (raise .illegalCmd s).readData = s.readData := rfl

-- the reset event (R250)
@[simp] theorem resetEvent_S (s : State) : (resetEvent s).S = CipherState.zero := rfl
@[simp] theorem resetEvent_W (s : State) : (resetEvent s).W = 0#256 := rfl
@[simp] theorem resetEvent_T (s : State) : (resetEvent s).T = 0#256 := rfl
@[simp] theorem resetEvent_phase (s : State) : (resetEvent s).phase = Phase.idle := rfl
@[simp] theorem resetEvent_rnd (s : State) : (resetEvent s).rnd = 0#5 := rfl
@[simp] theorem resetEvent_adpos (s : State) : (resetEvent s).adpos = 0#64 := rfl
@[simp] theorem resetEvent_mpos (s : State) : (resetEvent s).mpos = 0#64 := rfl
@[simp] theorem resetEvent_fail (s : State) : (resetEvent s).fail = false := rfl
@[simp] theorem resetEvent_key (s : State) : (resetEvent s).key = 0#256 := rfl
@[simp] theorem resetEvent_nonce (s : State) : (resetEvent s).nonce = 0#128 := rfl
@[simp] theorem resetEvent_adlen (s : State) : (resetEvent s).adlen = 0#64 := rfl
@[simp] theorem resetEvent_mlen (s : State) : (resetEvent s).mlen = 0#64 := rfl
@[simp] theorem resetEvent_done (s : State) : (resetEvent s).done = false := rfl
@[simp] theorem resetEvent_err (s : State) : (resetEvent s).err = 0#2 := rfl
@[simp] theorem resetEvent_dir (s : State) : (resetEvent s).dir = false := rfl
@[simp] theorem resetEvent_ad (s : State) : (resetEvent s).ad = s.ad := rfl
@[simp] theorem resetEvent_inp (s : State) : (resetEvent s).inp = s.inp := rfl
@[simp] theorem resetEvent_out (s : State) : (resetEvent s).out = s.out := rfl
@[simp] theorem resetEvent_script (s : State) : (resetEvent s).script = s.script := rfl
@[simp] theorem resetEvent_readData (s : State) : (resetEvent s).readData = s.readData := rfl

-- a host register read (R36)
@[simp] theorem readHostReg_S (r : HostReg) (s : State) : (readHostReg r s).S = s.S := rfl
@[simp] theorem readHostReg_W (r : HostReg) (s : State) : (readHostReg r s).W = s.W := rfl
@[simp] theorem readHostReg_T (r : HostReg) (s : State) : (readHostReg r s).T = s.T := rfl
@[simp] theorem readHostReg_phase (r : HostReg) (s : State) : (readHostReg r s).phase = s.phase := rfl
@[simp] theorem readHostReg_rnd (r : HostReg) (s : State) : (readHostReg r s).rnd = s.rnd := rfl
@[simp] theorem readHostReg_adpos (r : HostReg) (s : State) : (readHostReg r s).adpos = s.adpos := rfl
@[simp] theorem readHostReg_mpos (r : HostReg) (s : State) : (readHostReg r s).mpos = s.mpos := rfl
@[simp] theorem readHostReg_fail (r : HostReg) (s : State) : (readHostReg r s).fail = s.fail := rfl
@[simp] theorem readHostReg_key (r : HostReg) (s : State) : (readHostReg r s).key = s.key := rfl
@[simp] theorem readHostReg_nonce (r : HostReg) (s : State) : (readHostReg r s).nonce = s.nonce := rfl
@[simp] theorem readHostReg_adlen (r : HostReg) (s : State) : (readHostReg r s).adlen = s.adlen := rfl
@[simp] theorem readHostReg_mlen (r : HostReg) (s : State) : (readHostReg r s).mlen = s.mlen := rfl
@[simp] theorem readHostReg_done (r : HostReg) (s : State) : (readHostReg r s).done = s.done := rfl
@[simp] theorem readHostReg_err (r : HostReg) (s : State) : (readHostReg r s).err = s.err := rfl
@[simp] theorem readHostReg_dir (r : HostReg) (s : State) : (readHostReg r s).dir = s.dir := rfl
@[simp] theorem readHostReg_ad (r : HostReg) (s : State) : (readHostReg r s).ad = s.ad := rfl
@[simp] theorem readHostReg_inp (r : HostReg) (s : State) : (readHostReg r s).inp = s.inp := rfl
@[simp] theorem readHostReg_out (r : HostReg) (s : State) : (readHostReg r s).out = s.out := rfl
@[simp] theorem readHostReg_script (r : HostReg) (s : State) : (readHostReg r s).script = s.script := rfl
@[simp] theorem readHostReg_readData (r : HostReg) (s : State) : (readHostReg r s).readData = some (readReg r s) := rfl

-- host register writes (R30)
@[simp] theorem writeReg_adlen_S (v : Len) (s : State) : (writeReg (.adlen v) s).S = s.S := rfl
@[simp] theorem writeReg_adlen_W (v : Len) (s : State) : (writeReg (.adlen v) s).W = s.W := rfl
@[simp] theorem writeReg_adlen_T (v : Len) (s : State) : (writeReg (.adlen v) s).T = s.T := rfl
@[simp] theorem writeReg_adlen_phase (v : Len) (s : State) : (writeReg (.adlen v) s).phase = s.phase := rfl
@[simp] theorem writeReg_adlen_rnd (v : Len) (s : State) : (writeReg (.adlen v) s).rnd = s.rnd := rfl
@[simp] theorem writeReg_adlen_adpos (v : Len) (s : State) : (writeReg (.adlen v) s).adpos = s.adpos := rfl
@[simp] theorem writeReg_adlen_mpos (v : Len) (s : State) : (writeReg (.adlen v) s).mpos = s.mpos := rfl
@[simp] theorem writeReg_adlen_fail (v : Len) (s : State) : (writeReg (.adlen v) s).fail = s.fail := rfl
@[simp] theorem writeReg_adlen_key (v : Len) (s : State) : (writeReg (.adlen v) s).key = s.key := rfl
@[simp] theorem writeReg_adlen_nonce (v : Len) (s : State) : (writeReg (.adlen v) s).nonce = s.nonce := rfl
@[simp] theorem writeReg_adlen_adlen (v : Len) (s : State) : (writeReg (.adlen v) s).adlen = v := rfl
@[simp] theorem writeReg_adlen_mlen (v : Len) (s : State) : (writeReg (.adlen v) s).mlen = s.mlen := rfl
@[simp] theorem writeReg_adlen_done (v : Len) (s : State) : (writeReg (.adlen v) s).done = s.done := rfl
@[simp] theorem writeReg_adlen_err (v : Len) (s : State) : (writeReg (.adlen v) s).err = s.err := rfl
@[simp] theorem writeReg_adlen_dir (v : Len) (s : State) : (writeReg (.adlen v) s).dir = s.dir := rfl
@[simp] theorem writeReg_adlen_ad (v : Len) (s : State) : (writeReg (.adlen v) s).ad = s.ad := rfl
@[simp] theorem writeReg_adlen_inp (v : Len) (s : State) : (writeReg (.adlen v) s).inp = s.inp := rfl
@[simp] theorem writeReg_adlen_out (v : Len) (s : State) : (writeReg (.adlen v) s).out = s.out := rfl
@[simp] theorem writeReg_adlen_script (v : Len) (s : State) : (writeReg (.adlen v) s).script = s.script := rfl
@[simp] theorem writeReg_adlen_readData (v : Len) (s : State) : (writeReg (.adlen v) s).readData = s.readData := rfl
@[simp] theorem writeReg_mlen_S (v : Len) (s : State) : (writeReg (.mlen v) s).S = s.S := rfl
@[simp] theorem writeReg_mlen_W (v : Len) (s : State) : (writeReg (.mlen v) s).W = s.W := rfl
@[simp] theorem writeReg_mlen_T (v : Len) (s : State) : (writeReg (.mlen v) s).T = s.T := rfl
@[simp] theorem writeReg_mlen_phase (v : Len) (s : State) : (writeReg (.mlen v) s).phase = s.phase := rfl
@[simp] theorem writeReg_mlen_rnd (v : Len) (s : State) : (writeReg (.mlen v) s).rnd = s.rnd := rfl
@[simp] theorem writeReg_mlen_adpos (v : Len) (s : State) : (writeReg (.mlen v) s).adpos = s.adpos := rfl
@[simp] theorem writeReg_mlen_mpos (v : Len) (s : State) : (writeReg (.mlen v) s).mpos = s.mpos := rfl
@[simp] theorem writeReg_mlen_fail (v : Len) (s : State) : (writeReg (.mlen v) s).fail = s.fail := rfl
@[simp] theorem writeReg_mlen_key (v : Len) (s : State) : (writeReg (.mlen v) s).key = s.key := rfl
@[simp] theorem writeReg_mlen_nonce (v : Len) (s : State) : (writeReg (.mlen v) s).nonce = s.nonce := rfl
@[simp] theorem writeReg_mlen_adlen (v : Len) (s : State) : (writeReg (.mlen v) s).adlen = s.adlen := rfl
@[simp] theorem writeReg_mlen_mlen (v : Len) (s : State) : (writeReg (.mlen v) s).mlen = v := rfl
@[simp] theorem writeReg_mlen_done (v : Len) (s : State) : (writeReg (.mlen v) s).done = s.done := rfl
@[simp] theorem writeReg_mlen_err (v : Len) (s : State) : (writeReg (.mlen v) s).err = s.err := rfl
@[simp] theorem writeReg_mlen_dir (v : Len) (s : State) : (writeReg (.mlen v) s).dir = s.dir := rfl
@[simp] theorem writeReg_mlen_ad (v : Len) (s : State) : (writeReg (.mlen v) s).ad = s.ad := rfl
@[simp] theorem writeReg_mlen_inp (v : Len) (s : State) : (writeReg (.mlen v) s).inp = s.inp := rfl
@[simp] theorem writeReg_mlen_out (v : Len) (s : State) : (writeReg (.mlen v) s).out = s.out := rfl
@[simp] theorem writeReg_mlen_script (v : Len) (s : State) : (writeReg (.mlen v) s).script = s.script := rfl
@[simp] theorem writeReg_mlen_readData (v : Len) (s : State) : (writeReg (.mlen v) s).readData = s.readData := rfl
@[simp] theorem writeReg_nonce_S (v : W128) (s : State) : (writeReg (.nonce v) s).S = s.S := rfl
@[simp] theorem writeReg_nonce_W (v : W128) (s : State) : (writeReg (.nonce v) s).W = s.W := rfl
@[simp] theorem writeReg_nonce_T (v : W128) (s : State) : (writeReg (.nonce v) s).T = s.T := rfl
@[simp] theorem writeReg_nonce_phase (v : W128) (s : State) : (writeReg (.nonce v) s).phase = s.phase := rfl
@[simp] theorem writeReg_nonce_rnd (v : W128) (s : State) : (writeReg (.nonce v) s).rnd = s.rnd := rfl
@[simp] theorem writeReg_nonce_adpos (v : W128) (s : State) : (writeReg (.nonce v) s).adpos = s.adpos := rfl
@[simp] theorem writeReg_nonce_mpos (v : W128) (s : State) : (writeReg (.nonce v) s).mpos = s.mpos := rfl
@[simp] theorem writeReg_nonce_fail (v : W128) (s : State) : (writeReg (.nonce v) s).fail = s.fail := rfl
@[simp] theorem writeReg_nonce_key (v : W128) (s : State) : (writeReg (.nonce v) s).key = s.key := rfl
@[simp] theorem writeReg_nonce_nonce (v : W128) (s : State) : (writeReg (.nonce v) s).nonce = v := rfl
@[simp] theorem writeReg_nonce_adlen (v : W128) (s : State) : (writeReg (.nonce v) s).adlen = s.adlen := rfl
@[simp] theorem writeReg_nonce_mlen (v : W128) (s : State) : (writeReg (.nonce v) s).mlen = s.mlen := rfl
@[simp] theorem writeReg_nonce_done (v : W128) (s : State) : (writeReg (.nonce v) s).done = s.done := rfl
@[simp] theorem writeReg_nonce_err (v : W128) (s : State) : (writeReg (.nonce v) s).err = s.err := rfl
@[simp] theorem writeReg_nonce_dir (v : W128) (s : State) : (writeReg (.nonce v) s).dir = s.dir := rfl
@[simp] theorem writeReg_nonce_ad (v : W128) (s : State) : (writeReg (.nonce v) s).ad = s.ad := rfl
@[simp] theorem writeReg_nonce_inp (v : W128) (s : State) : (writeReg (.nonce v) s).inp = s.inp := rfl
@[simp] theorem writeReg_nonce_out (v : W128) (s : State) : (writeReg (.nonce v) s).out = s.out := rfl
@[simp] theorem writeReg_nonce_script (v : W128) (s : State) : (writeReg (.nonce v) s).script = s.script := rfl
@[simp] theorem writeReg_nonce_readData (v : W128) (s : State) : (writeReg (.nonce v) s).readData = s.readData := rfl
@[simp] theorem writeReg_key_S (v : W256) (s : State) : (writeReg (.key v) s).S = s.S := rfl
@[simp] theorem writeReg_key_W (v : W256) (s : State) : (writeReg (.key v) s).W = s.W := rfl
@[simp] theorem writeReg_key_T (v : W256) (s : State) : (writeReg (.key v) s).T = s.T := rfl
@[simp] theorem writeReg_key_phase (v : W256) (s : State) : (writeReg (.key v) s).phase = s.phase := rfl
@[simp] theorem writeReg_key_rnd (v : W256) (s : State) : (writeReg (.key v) s).rnd = s.rnd := rfl
@[simp] theorem writeReg_key_adpos (v : W256) (s : State) : (writeReg (.key v) s).adpos = s.adpos := rfl
@[simp] theorem writeReg_key_mpos (v : W256) (s : State) : (writeReg (.key v) s).mpos = s.mpos := rfl
@[simp] theorem writeReg_key_fail (v : W256) (s : State) : (writeReg (.key v) s).fail = s.fail := rfl
@[simp] theorem writeReg_key_key (v : W256) (s : State) : (writeReg (.key v) s).key = v := rfl
@[simp] theorem writeReg_key_nonce (v : W256) (s : State) : (writeReg (.key v) s).nonce = s.nonce := rfl
@[simp] theorem writeReg_key_adlen (v : W256) (s : State) : (writeReg (.key v) s).adlen = s.adlen := rfl
@[simp] theorem writeReg_key_mlen (v : W256) (s : State) : (writeReg (.key v) s).mlen = s.mlen := rfl
@[simp] theorem writeReg_key_done (v : W256) (s : State) : (writeReg (.key v) s).done = s.done := rfl
@[simp] theorem writeReg_key_err (v : W256) (s : State) : (writeReg (.key v) s).err = s.err := rfl
@[simp] theorem writeReg_key_dir (v : W256) (s : State) : (writeReg (.key v) s).dir = s.dir := rfl
@[simp] theorem writeReg_key_ad (v : W256) (s : State) : (writeReg (.key v) s).ad = s.ad := rfl
@[simp] theorem writeReg_key_inp (v : W256) (s : State) : (writeReg (.key v) s).inp = s.inp := rfl
@[simp] theorem writeReg_key_out (v : W256) (s : State) : (writeReg (.key v) s).out = s.out := rfl
@[simp] theorem writeReg_key_script (v : W256) (s : State) : (writeReg (.key v) s).script = s.script := rfl
@[simp] theorem writeReg_key_readData (v : W256) (s : State) : (writeReg (.key v) s).readData = s.readData := rfl
@[simp] theorem writeReg_cmd (c : BitVec 8) (s : State) : writeReg (.cmd c) s = s := rfl
@[simp] theorem writeReg_status (v : BitVec 8) (s : State) : writeReg (.status v) s = s := rfl

-- host FILL (R101)
@[simp] theorem storeBytes_ad_S (a : Nat) (bs : List Byte) (s : State) : (s.storeBytes .ad a bs).S = s.S := rfl
@[simp] theorem storeBytes_ad_W (a : Nat) (bs : List Byte) (s : State) : (s.storeBytes .ad a bs).W = s.W := rfl
@[simp] theorem storeBytes_ad_T (a : Nat) (bs : List Byte) (s : State) : (s.storeBytes .ad a bs).T = s.T := rfl
@[simp] theorem storeBytes_ad_phase (a : Nat) (bs : List Byte) (s : State) : (s.storeBytes .ad a bs).phase = s.phase := rfl
@[simp] theorem storeBytes_ad_rnd (a : Nat) (bs : List Byte) (s : State) : (s.storeBytes .ad a bs).rnd = s.rnd := rfl
@[simp] theorem storeBytes_ad_adpos (a : Nat) (bs : List Byte) (s : State) : (s.storeBytes .ad a bs).adpos = s.adpos := rfl
@[simp] theorem storeBytes_ad_mpos (a : Nat) (bs : List Byte) (s : State) : (s.storeBytes .ad a bs).mpos = s.mpos := rfl
@[simp] theorem storeBytes_ad_fail (a : Nat) (bs : List Byte) (s : State) : (s.storeBytes .ad a bs).fail = s.fail := rfl
@[simp] theorem storeBytes_ad_key (a : Nat) (bs : List Byte) (s : State) : (s.storeBytes .ad a bs).key = s.key := rfl
@[simp] theorem storeBytes_ad_nonce (a : Nat) (bs : List Byte) (s : State) : (s.storeBytes .ad a bs).nonce = s.nonce := rfl
@[simp] theorem storeBytes_ad_adlen (a : Nat) (bs : List Byte) (s : State) : (s.storeBytes .ad a bs).adlen = s.adlen := rfl
@[simp] theorem storeBytes_ad_mlen (a : Nat) (bs : List Byte) (s : State) : (s.storeBytes .ad a bs).mlen = s.mlen := rfl
@[simp] theorem storeBytes_ad_done (a : Nat) (bs : List Byte) (s : State) : (s.storeBytes .ad a bs).done = s.done := rfl
@[simp] theorem storeBytes_ad_err (a : Nat) (bs : List Byte) (s : State) : (s.storeBytes .ad a bs).err = s.err := rfl
@[simp] theorem storeBytes_ad_dir (a : Nat) (bs : List Byte) (s : State) : (s.storeBytes .ad a bs).dir = s.dir := rfl
@[simp] theorem storeBytes_ad_ad (a : Nat) (bs : List Byte) (s : State) : (s.storeBytes .ad a bs).ad = s.ad.write a bs := rfl
@[simp] theorem storeBytes_ad_inp (a : Nat) (bs : List Byte) (s : State) : (s.storeBytes .ad a bs).inp = s.inp := rfl
@[simp] theorem storeBytes_ad_out (a : Nat) (bs : List Byte) (s : State) : (s.storeBytes .ad a bs).out = s.out := rfl
@[simp] theorem storeBytes_ad_script (a : Nat) (bs : List Byte) (s : State) : (s.storeBytes .ad a bs).script = s.script := rfl
@[simp] theorem storeBytes_ad_readData (a : Nat) (bs : List Byte) (s : State) : (s.storeBytes .ad a bs).readData = s.readData := rfl
@[simp] theorem storeBytes_inp_S (a : Nat) (bs : List Byte) (s : State) : (s.storeBytes .inp a bs).S = s.S := rfl
@[simp] theorem storeBytes_inp_W (a : Nat) (bs : List Byte) (s : State) : (s.storeBytes .inp a bs).W = s.W := rfl
@[simp] theorem storeBytes_inp_T (a : Nat) (bs : List Byte) (s : State) : (s.storeBytes .inp a bs).T = s.T := rfl
@[simp] theorem storeBytes_inp_phase (a : Nat) (bs : List Byte) (s : State) : (s.storeBytes .inp a bs).phase = s.phase := rfl
@[simp] theorem storeBytes_inp_rnd (a : Nat) (bs : List Byte) (s : State) : (s.storeBytes .inp a bs).rnd = s.rnd := rfl
@[simp] theorem storeBytes_inp_adpos (a : Nat) (bs : List Byte) (s : State) : (s.storeBytes .inp a bs).adpos = s.adpos := rfl
@[simp] theorem storeBytes_inp_mpos (a : Nat) (bs : List Byte) (s : State) : (s.storeBytes .inp a bs).mpos = s.mpos := rfl
@[simp] theorem storeBytes_inp_fail (a : Nat) (bs : List Byte) (s : State) : (s.storeBytes .inp a bs).fail = s.fail := rfl
@[simp] theorem storeBytes_inp_key (a : Nat) (bs : List Byte) (s : State) : (s.storeBytes .inp a bs).key = s.key := rfl
@[simp] theorem storeBytes_inp_nonce (a : Nat) (bs : List Byte) (s : State) : (s.storeBytes .inp a bs).nonce = s.nonce := rfl
@[simp] theorem storeBytes_inp_adlen (a : Nat) (bs : List Byte) (s : State) : (s.storeBytes .inp a bs).adlen = s.adlen := rfl
@[simp] theorem storeBytes_inp_mlen (a : Nat) (bs : List Byte) (s : State) : (s.storeBytes .inp a bs).mlen = s.mlen := rfl
@[simp] theorem storeBytes_inp_done (a : Nat) (bs : List Byte) (s : State) : (s.storeBytes .inp a bs).done = s.done := rfl
@[simp] theorem storeBytes_inp_err (a : Nat) (bs : List Byte) (s : State) : (s.storeBytes .inp a bs).err = s.err := rfl
@[simp] theorem storeBytes_inp_dir (a : Nat) (bs : List Byte) (s : State) : (s.storeBytes .inp a bs).dir = s.dir := rfl
@[simp] theorem storeBytes_inp_ad (a : Nat) (bs : List Byte) (s : State) : (s.storeBytes .inp a bs).ad = s.ad := rfl
@[simp] theorem storeBytes_inp_inp (a : Nat) (bs : List Byte) (s : State) : (s.storeBytes .inp a bs).inp = s.inp.write a bs := rfl
@[simp] theorem storeBytes_inp_out (a : Nat) (bs : List Byte) (s : State) : (s.storeBytes .inp a bs).out = s.out := rfl
@[simp] theorem storeBytes_inp_script (a : Nat) (bs : List Byte) (s : State) : (s.storeBytes .inp a bs).script = s.script := rfl
@[simp] theorem storeBytes_inp_readData (a : Nat) (bs : List Byte) (s : State) : (s.storeBytes .inp a bs).readData = s.readData := rfl
@[simp] theorem storeBytes_out_S (a : Nat) (bs : List Byte) (s : State) : (s.storeBytes .out a bs).S = s.S := rfl
@[simp] theorem storeBytes_out_W (a : Nat) (bs : List Byte) (s : State) : (s.storeBytes .out a bs).W = s.W := rfl
@[simp] theorem storeBytes_out_T (a : Nat) (bs : List Byte) (s : State) : (s.storeBytes .out a bs).T = s.T := rfl
@[simp] theorem storeBytes_out_phase (a : Nat) (bs : List Byte) (s : State) : (s.storeBytes .out a bs).phase = s.phase := rfl
@[simp] theorem storeBytes_out_rnd (a : Nat) (bs : List Byte) (s : State) : (s.storeBytes .out a bs).rnd = s.rnd := rfl
@[simp] theorem storeBytes_out_adpos (a : Nat) (bs : List Byte) (s : State) : (s.storeBytes .out a bs).adpos = s.adpos := rfl
@[simp] theorem storeBytes_out_mpos (a : Nat) (bs : List Byte) (s : State) : (s.storeBytes .out a bs).mpos = s.mpos := rfl
@[simp] theorem storeBytes_out_fail (a : Nat) (bs : List Byte) (s : State) : (s.storeBytes .out a bs).fail = s.fail := rfl
@[simp] theorem storeBytes_out_key (a : Nat) (bs : List Byte) (s : State) : (s.storeBytes .out a bs).key = s.key := rfl
@[simp] theorem storeBytes_out_nonce (a : Nat) (bs : List Byte) (s : State) : (s.storeBytes .out a bs).nonce = s.nonce := rfl
@[simp] theorem storeBytes_out_adlen (a : Nat) (bs : List Byte) (s : State) : (s.storeBytes .out a bs).adlen = s.adlen := rfl
@[simp] theorem storeBytes_out_mlen (a : Nat) (bs : List Byte) (s : State) : (s.storeBytes .out a bs).mlen = s.mlen := rfl
@[simp] theorem storeBytes_out_done (a : Nat) (bs : List Byte) (s : State) : (s.storeBytes .out a bs).done = s.done := rfl
@[simp] theorem storeBytes_out_err (a : Nat) (bs : List Byte) (s : State) : (s.storeBytes .out a bs).err = s.err := rfl
@[simp] theorem storeBytes_out_dir (a : Nat) (bs : List Byte) (s : State) : (s.storeBytes .out a bs).dir = s.dir := rfl
@[simp] theorem storeBytes_out_ad (a : Nat) (bs : List Byte) (s : State) : (s.storeBytes .out a bs).ad = s.ad := rfl
@[simp] theorem storeBytes_out_inp (a : Nat) (bs : List Byte) (s : State) : (s.storeBytes .out a bs).inp = s.inp := rfl
@[simp] theorem storeBytes_out_out (a : Nat) (bs : List Byte) (s : State) : (s.storeBytes .out a bs).out = s.out.write a bs := rfl
@[simp] theorem storeBytes_out_script (a : Nat) (bs : List Byte) (s : State) : (s.storeBytes .out a bs).script = s.script := rfl
@[simp] theorem storeBytes_out_readData (a : Nat) (bs : List Byte) (s : State) : (s.storeBytes .out a bs).readData = s.readData := rfl

-- busy and the acceptance step (R35, R192, R193, R195)
theorem busy_eq_false {s : State} : busy s = false ↔ s.phase = Phase.idle := by simp [busy]

theorem busy_eq_true {s : State} : busy s = true ↔ s.phase ≠ Phase.idle := by simp [busy]

theorem acceptCommand_busy {s : State} (h : s.phase ≠ Phase.idle) (d : Bool) : acceptCommand d s = s := by
  simp [acceptCommand, busy, h]

theorem acceptCommand_idle {s : State} (h : s.phase = Phase.idle) (d : Bool) :
    acceptCommand d s = { s with dir := d, done := false, err := 0#2, phase := Phase.initLoad } := by
  simp [acceptCommand, busy, h]

/-- All the acceptance step can do: nothing, or start an operation (R192, R193, R195). -/
theorem acceptCommand_cases (d : Bool) (s : State) :
    (s.phase ≠ Phase.idle ∧ acceptCommand d s = s) ∨
    (s.phase = Phase.idle ∧
      acceptCommand d s = { s with dir := d, done := false, err := 0#2, phase := Phase.initLoad }) := by
  by_cases h : s.phase = Phase.idle
  · exact .inr ⟨h, acceptCommand_idle h d⟩
  · exact .inl ⟨h, acceptCommand_busy h d⟩

end Sys2Proof.Machine
end

