-- ==== Sys2Proof/Laws/Exec.lean ====
section
/-! SUPPORT. What each shared operation, each meaning and a step can do, said once: if it answers
`next t`, then one of these cases holds. -/

namespace Sys2Proof.Machine

-- operands read from a space, results written to one

/-- Byte `i` of the zero-padded block read from a space (R98, R64). -/
theorem byteAt_block_read (m : Memory) (a n i : Nat) (hi : i < 32) :
    byteAt (block (m.read a n)) i = if i < n then m.get (a + i) else 0x00#8 := by
  rw [byteAt_block _ _ hi]
  split
  · rename_i h
    rw [List.getD_eq_getElem _ _ (by simpa using h), Memory.getElem_read]
  · rename_i h
    rw [List.getD_eq_default _ _ (by simpa using h)]

/-- A byte of `OUT` after the first `n` bytes of a value were written there (R65). -/
theorem Memory.get_write_toBytes {m : Memory} (hm : m.wf) (a : Nat) (v : W256) {n i : Nat} (hi : i < n) :
    (m.write a (toBytes v n)).get (a + i) = byteAt v i := by
  have h : i < (toBytes v n).length := by simpa using hi
  rw [Memory.get_write_inside hm a (toBytes v n) h, getElem_toBytes]

/-- A byte of `OUT` outside the bytes written (R65). -/
theorem Memory.get_write_toBytes_outside {m : Memory} (hm : m.wf) (a : Nat) (v : W256) {n b : Nat}
    (hb : b < a ∨ a + n ≤ b) : (m.write a (toBytes v n)).get b = m.get b :=
  Memory.get_write_outside hm a _ (by simpa using hb)

/-- One `MemWrite` into two spaces: the bytes written agree, every other byte is the one each space held (R65). -/
theorem Memory.write_toBytes_agree {m m' out : Memory} (hm : m.wf) (hm' : m'.wf) {a n : Nat} {v : W256}
    (ho : out = m.write a (toBytes v n)) :
    ∃ out', out' = m'.write a (toBytes v n) ∧ (∀ b, a ≤ b ∧ b < a + n → out'.get b = out.get b) ∧
      ∀ b, ¬ (a ≤ b ∧ b < a + n) → out'.get b = m'.get b ∧ out.get b = m.get b := by
  subst ho
  refine ⟨_, rfl, fun b hb => ?_, fun b hb => ?_⟩
  · obtain ⟨i, rfl⟩ : ∃ i, b = a + i := ⟨b - a, by omega⟩
    rw [Memory.get_write_toBytes hm' _ _ (by omega), Memory.get_write_toBytes hm _ _ (by omega)]
  · exact ⟨Memory.get_write_toBytes_outside hm' _ _ (by omega), Memory.get_write_toBytes_outside hm _ _ (by omega)⟩

-- the counters (R117)

theorem nextRound_eq_some {r q : BitVec 5} : nextRound r = some q ↔ r.toNat < 31 ∧ q = r + 1#5 := by
  revert r q; decide

theorem toNat_add_block {p : Len} (h : p.toNat + 32 < 2 ^ 64) : (p + 32#64).toNat = p.toNat + 32 := by
  rw [BitVec.toNat_add]; simp only [BitVec.toNat_ofNat]; omega

theorem nextPosition_eq_some {p q : Len} :
    nextPosition p = some q ↔ p.toNat + 32 < 2 ^ 64 ∧ q = p + 32#64 := by
  unfold nextPosition Config.blockBytes
  split
  · rename_i h
    have h2 : BitVec.ofNat 64 (p.toNat + 32) = p + 32#64 := by
      apply BitVec.eq_of_toNat_eq
      rw [toNat_add_block h, BitVec.toNat_ofNat, Nat.mod_eq_of_lt h]
    rw [h2, Option.some.injEq]
    exact ⟨fun e => ⟨h, e.symm⟩, fun e => e.2.symm⟩
  · rename_i h
    exact ⟨(fun e => nomatch e), fun e => absurd e.1 h⟩

theorem nextPosition_of_lt {p : Len} (h : p.toNat + 32 < 2 ^ 64) : nextPosition p = some (p + 32#64) :=
  nextPosition_eq_some.2 ⟨h, rfl⟩

theorem remainder_eq_some {len pos : Len} {n : Nat} :
    remainder len pos = some n ↔ pos.toNat + n = len.toNat ∧ n ≤ 32 := by
  unfold remainder Config.blockBytes
  split
  · rw [Option.some.injEq]; omega
  · rename_i h
    refine ⟨(fun e => nomatch e), fun e => absurd ?_ h⟩
    omega

theorem remainder_of_lt {len pos : Len} (h : pos.toNat ≤ len.toNat) (h2 : len.toNat ≤ pos.toNat + 32) :
    remainder len pos = some (len.toNat - pos.toNat) :=
  remainder_eq_some.2 ⟨by omega, by omega⟩

theorem remainder_eq_none {len pos : Len} (h : len.toNat < pos.toNat ∨ pos.toNat + 32 < len.toNat) :
    remainder len pos = none := by
  unfold remainder Config.blockBytes
  exact if_neg (by omega)

-- the dispatch functions (R196, R197)

/-- All `msg_dispatch()` can answer (R197), on a position within its length. -/
theorem msgDispatch_cases (d : Bool) {mlen mpos : Len} (h : mpos.toNat ≤ mlen.toNat) :
    (mpos.toNat + 32 ≤ mlen.toNat ∧
      (d = true ∧ msgDispatch d mlen mpos = Phase.decFull ∨
        d = false ∧ msgDispatch d mlen mpos = Phase.encFull)) ∨
    (mpos.toNat < mlen.toNat ∧ mlen.toNat < mpos.toNat + 32 ∧
      (d = true ∧ msgDispatch d mlen mpos = Phase.decPart ∨
        d = false ∧ msgDispatch d mlen mpos = Phase.encPart)) ∨
    (mpos.toNat = mlen.toNat ∧ msgDispatch d mlen mpos = Phase.finRound) := by
  unfold msgDispatch Config.blockBytes
  cases d
  all_goals
    split
    · refine .inl ⟨by omega, by simp⟩
    · split
      · refine .inr (.inl ⟨by omega, by omega, by simp⟩)
      · refine .inr (.inr ⟨by omega, rfl⟩)

/-- All `ad_dispatch()` can answer (R196), on a position within its length. -/
theorem adDispatch_cases (d : Bool) {adlen adpos : Len} (mlen mpos : Len) (h : adpos.toNat ≤ adlen.toNat) :
    (adpos.toNat + 32 ≤ adlen.toNat ∧ adDispatch d adlen adpos mlen mpos = Phase.adFull) ∨
    (adpos.toNat < adlen.toNat ∧ adlen.toNat < adpos.toNat + 32 ∧
      adDispatch d adlen adpos mlen mpos = Phase.adPart) ∨
    (adpos.toNat = adlen.toNat ∧ adDispatch d adlen adpos mlen mpos = msgDispatch d mlen mpos) := by
  unfold adDispatch Config.blockBytes
  split
  · exact .inl ⟨by omega, rfl⟩
  · split
    · exact .inr (.inl ⟨by omega, by omega, rfl⟩)
    · exact .inr (.inr ⟨by omega, rfl⟩)

/-- `msg_dispatch()` never answers IDLE. -/
theorem msgDispatch_ne_idle (d : Bool) (mlen mpos : Len) : msgDispatch d mlen mpos ≠ Phase.idle := by
  unfold msgDispatch
  cases d <;> (repeat' split) <;> decide

/-- `ad_dispatch()` never answers IDLE. -/
theorem adDispatch_ne_idle (d : Bool) (adlen adpos mlen mpos : Len) :
    adDispatch d adlen adpos mlen mpos ≠ Phase.idle := by
  unfold adDispatch
  split
  · decide
  · split
    · decide
    · exact msgDispatch_ne_idle d mlen mpos

-- the meanings

/-- All a counted round can do (R132, R172). -/
theorem roundLoop_cases {x0 x1 : W128} {stay exit : Phase} {s t : State}
    (h : roundLoop x0 x1 stay exit s = .next t) :
    (s.rnd = 15#5 ∧ t = { s with S := round s.S x0 x1, rnd := 0#5, phase := exit }) ∨
    (s.rnd ≠ 15#5 ∧ s.rnd.toNat < 31 ∧
      t = { s with S := round s.S x0 x1, rnd := s.rnd + 1#5, phase := stay }) := by
  unfold roundLoop at h
  split at h
  · rename_i h1
    exact .inl ⟨h1, by injection h with h; exact h.symm⟩
  · rename_i h1
    split at h
    · rename_i r hr
      obtain ⟨h2, rfl⟩ := nextRound_eq_some.1 hr
      exact .inr ⟨h1, h2, by injection h with h; exact h.symm⟩
    · cases h

/-- A counted round that is not the last (R132, R172). -/
theorem roundLoop_stay {x0 x1 : W128} {stay exit : Phase} {s : State} (h : s.rnd.toNat < 15) :
    roundLoop x0 x1 stay exit s =
      .next { s with S := round s.S x0 x1, rnd := s.rnd + 1#5, phase := stay } := by
  have h1 : s.rnd ≠ Config.lastRound := fun e => by rw [e] at h; exact absurd h (by decide)
  have h2 : nextRound s.rnd = some (s.rnd + 1#5) := nextRound_eq_some.2 ⟨by omega, rfl⟩
  unfold roundLoop
  rw [if_neg h1, h2]

/-- The last counted round (R132, R172). -/
theorem roundLoop_exit {x0 x1 : W128} {stay exit : Phase} {s : State} (h : s.rnd = 15#5) :
    roundLoop x0 x1 stay exit s = .next { s with S := round s.S x0 x1, rnd := 0#5, phase := exit } := by
  unfold roundLoop
  rw [if_pos h]

/-- All AD_FULL can do (R142). -/
theorem execAdFull_next {s t : State} (h : execAdFull s = .next t) :
    s.adpos.toNat + 32 < 2 ^ 64 ∧
    t = { s with
      S := absorbBlock s.S (block (s.ad.read s.adpos.toNat 32)), adpos := s.adpos + 32#64,
      phase := adDispatch s.dir s.adlen (s.adpos + 32#64) s.mlen s.mpos } := by
  unfold execAdFull at h
  split at h
  · rename_i p hp
    obtain ⟨h1, rfl⟩ := nextPosition_eq_some.1 hp
    injection h with h
    exact ⟨h1, h.symm⟩
  · cases h

/-- All AD_PART can do (R144). -/
theorem execAdPart_next {s t : State} (h : execAdPart s = .next t) :
    ∃ n, s.adpos.toNat + n = s.adlen.toNat ∧ n ≤ 32 ∧
    t = { s with
      S := absorbBlock s.S (block (s.ad.read s.adpos.toNat n)), W := block (s.ad.read s.adpos.toNat n),
      adpos := s.adlen, phase := msgDispatch s.dir s.mlen s.mpos } := by
  unfold execAdPart at h
  split at h
  · rename_i n hn
    obtain ⟨h1, h2⟩ := remainder_eq_some.1 hn
    injection h with h
    exact ⟨n, h1, h2, h.symm⟩
  · cases h

/-- All ENC_FULL can do (R152). -/
theorem execEncFull_next {s t : State} (h : execEncFull s = .next t) :
    s.mpos.toNat + 32 < 2 ^ 64 ∧
    ∃ out, out = s.out.write s.mpos.toNat
        (toBytes (cipherBlock s.S (block (s.inp.read s.mpos.toNat 32))) 32) ∧
    t = { s with
      out := out,
      S := absorbBlock s.S (block (s.inp.read s.mpos.toNat 32)), mpos := s.mpos + 32#64,
      phase := msgDispatch s.dir s.mlen (s.mpos + 32#64) } := by
  unfold execEncFull at h
  split at h
  · rename_i p hp
    obtain ⟨h1, rfl⟩ := nextPosition_eq_some.1 hp
    injection h with h
    exact ⟨h1, _, rfl, h.symm⟩
  · cases h

/-- All DEC_FULL can do (R154). -/
theorem execDecFull_next {s t : State} (h : execDecFull s = .next t) :
    s.mpos.toNat + 32 < 2 ^ 64 ∧
    ∃ out, out = s.out.write s.mpos.toNat
        (toBytes (cipherBlock s.S (block (s.inp.read s.mpos.toNat 32))) 32) ∧
    t = { s with
      out := out,
      S := absorbBlock s.S (cipherBlock s.S (block (s.inp.read s.mpos.toNat 32))),
      mpos := s.mpos + 32#64, phase := msgDispatch s.dir s.mlen (s.mpos + 32#64) } := by
  unfold execDecFull at h
  split at h
  · rename_i p hp
    obtain ⟨h1, rfl⟩ := nextPosition_eq_some.1 hp
    injection h with h
    exact ⟨h1, _, rfl, h.symm⟩
  · cases h

/-- All ENC_PART can do (R162). -/
theorem execEncPart_next {s t : State} (h : execEncPart s = .next t) :
    ∃ n out, s.mpos.toNat + n = s.mlen.toNat ∧ n ≤ 32 ∧
    out = s.out.write s.mpos.toNat (toBytes (cipherBlock s.S (block (s.inp.read s.mpos.toNat n))) n) ∧
    t = { s with
      out := out,
      W := block (s.inp.read s.mpos.toNat n),
      S := absorbBlock s.S (block (s.inp.read s.mpos.toNat n)), mpos := s.mlen,
      phase := Phase.finRound } := by
  unfold execEncPart at h
  split at h
  · rename_i n hn
    obtain ⟨h1, h2⟩ := remainder_eq_some.1 hn
    injection h with h
    exact ⟨n, _, h1, h2, rfl, h.symm⟩
  · cases h

/-- All DEC_PART can do (R164). -/
theorem execDecPart_next {s t : State} (h : execDecPart s = .next t) :
    ∃ n out, s.mpos.toNat + n = s.mlen.toNat ∧ n ≤ 32 ∧
    out = s.out.write s.mpos.toNat
      (toBytes (keepBytes (cipherBlock s.S (block (s.inp.read s.mpos.toNat n))) n) n) ∧
    t = { s with
      out := out,
      W := keepBytes (cipherBlock s.S (block (s.inp.read s.mpos.toNat n))) n,
      S := absorbBlock s.S (keepBytes (cipherBlock s.S (block (s.inp.read s.mpos.toNat n))) n),
      mpos := s.mlen, phase := Phase.finRound } := by
  unfold execDecPart at h
  split at h
  · rename_i n hn
    obtain ⟨h1, h2⟩ := remainder_eq_some.1 hn
    injection h with h
    exact ⟨n, _, h1, h2, rfl, h.symm⟩
  · cases h

/-- All TAG_VERIFY can do (R182, R221). -/
theorem execTagVerify_next {s t : State} (h : execTagVerify s = .next t) :
    (s.verdict = true ∧ t = { s with fail := false, phase := Phase.zeroize }) ∨
    (s.verdict = false ∧ t = { s with fail := true, phase := Phase.outWipe }) := by
  unfold execTagVerify at h
  split at h
  · rename_i h1
    exact .inl ⟨h1, by injection h with h; exact h.symm⟩
  · rename_i h1
    exact .inr ⟨by simpa [State.verdict, State.suppliedTag] using h1, by injection h with h; exact h.symm⟩

/-- All INIT_LOAD can do (R131). -/
theorem execInitLoad_next {s t : State} (h : execInitLoad s = .next t) :
    t = { s with
      S := loadState s.key s.nonce, rnd := 0#5, adpos := 0#64, mpos := 0#64, fail := false,
      phase := Phase.initRound } := (Host.Outcome.next.inj h).symm

/-- All INIT_WHITEN can do (R133). -/
theorem execInitWhiten_next {s t : State} (h : execInitWhiten s = .next t) :
    t = { s with S := whiten s.S s.key, phase := adDispatch s.dir s.adlen s.adpos s.mlen s.mpos } :=
  (Host.Outcome.next.inj h).symm

/-- All TAG_DERIVE can do (R174). -/
theorem execTagDerive_next {s t : State} (h : execTagDerive s = .next t) :
    t = { s with T := foldTag s.S, phase := if s.dir then Phase.tagVerify else Phase.tagWrite } :=
  (Host.Outcome.next.inj h).symm

/-- All TAG_WRITE can do (R176), the space it leaves in `OUT` under a name of its own. -/
theorem execTagWrite_next {s t : State} (h : execTagWrite s = .next t) :
    ∃ out, out = s.out.write s.mlen.toNat (toBytes s.T 32) ∧ t = { s with out := out, phase := Phase.zeroize } :=
  ⟨_, rfl, (Host.Outcome.next.inj h).symm⟩

/-- All OUT_WIPE can do (R184), the space it leaves in `OUT` under a name of its own. -/
theorem execOutWipe_next {s t : State} (h : execOutWipe s = .next t) :
    ∃ out, out = s.out.wipe s.mlen.toNat ∧ t = { s with out := out, phase := Phase.zeroize } :=
  ⟨_, rfl, (Host.Outcome.next.inj h).symm⟩

/-- All ZEROIZE can do (R205). -/
theorem execZeroize_next {s t : State} (h : execZeroize s = .next t) :
    t = { s with
      S := CipherState.zero, W := 0#256, T := 0#256, rnd := 0#5, adpos := 0#64, mpos := 0#64,
      done := true, err := outcomeCode s.fail, fail := false, phase := Phase.idle } :=
  (Host.Outcome.next.inj h).symm

/-- AD_FULL where the position has room to advance (R142). -/
theorem execAdFull_eq {s : State} (h : s.adpos.toNat + 32 < 2 ^ 64) :
    execAdFull s = .next { s with
      S := absorbBlock s.S (block (s.ad.read s.adpos.toNat 32)), adpos := s.adpos + 32#64,
      phase := adDispatch s.dir s.adlen (s.adpos + 32#64) s.mlen s.mpos } := by
  unfold execAdFull; rw [nextPosition_of_lt h]

/-- AD_PART on a remainder of `n` bytes (R144). -/
theorem execAdPart_eq {s : State} {n : Nat} (h : s.adpos.toNat + n = s.adlen.toNat) (hn : n ≤ 32) :
    execAdPart s = .next { s with
      S := absorbBlock s.S (block (s.ad.read s.adpos.toNat n)), W := block (s.ad.read s.adpos.toNat n),
      adpos := s.adlen, phase := msgDispatch s.dir s.mlen s.mpos } := by
  unfold execAdPart; rw [remainder_eq_some.2 ⟨h, hn⟩]

/-- ENC_FULL where the position has room to advance (R152). -/
theorem execEncFull_eq {s : State} {out : Memory} (h : s.mpos.toNat + 32 < 2 ^ 64)
    (ho : out = s.out.write s.mpos.toNat
      (toBytes (cipherBlock s.S (block (s.inp.read s.mpos.toNat 32))) 32)) :
    execEncFull s = .next { s with
      out := out,
      S := absorbBlock s.S (block (s.inp.read s.mpos.toNat 32)), mpos := s.mpos + 32#64,
      phase := msgDispatch s.dir s.mlen (s.mpos + 32#64) } := by
  unfold execEncFull; rw [nextPosition_of_lt h, ho]

/-- DEC_FULL where the position has room to advance (R154). -/
theorem execDecFull_eq {s : State} {out : Memory} (h : s.mpos.toNat + 32 < 2 ^ 64)
    (ho : out = s.out.write s.mpos.toNat
      (toBytes (cipherBlock s.S (block (s.inp.read s.mpos.toNat 32))) 32)) :
    execDecFull s = .next { s with
      out := out,
      S := absorbBlock s.S (cipherBlock s.S (block (s.inp.read s.mpos.toNat 32))),
      mpos := s.mpos + 32#64, phase := msgDispatch s.dir s.mlen (s.mpos + 32#64) } := by
  unfold execDecFull; rw [nextPosition_of_lt h, ho]

/-- ENC_PART on a remainder of `n` bytes (R162). -/
theorem execEncPart_eq {s : State} {n : Nat} {out : Memory} (h : s.mpos.toNat + n = s.mlen.toNat)
    (hn : n ≤ 32)
    (ho : out = s.out.write s.mpos.toNat
      (toBytes (cipherBlock s.S (block (s.inp.read s.mpos.toNat n))) n)) :
    execEncPart s = .next { s with
      out := out,
      W := block (s.inp.read s.mpos.toNat n),
      S := absorbBlock s.S (block (s.inp.read s.mpos.toNat n)), mpos := s.mlen,
      phase := Phase.finRound } := by
  unfold execEncPart; rw [remainder_eq_some.2 ⟨h, hn⟩, ho]

/-- DEC_PART on a remainder of `n` bytes (R164). -/
theorem execDecPart_eq {s : State} {n : Nat} {out : Memory} (h : s.mpos.toNat + n = s.mlen.toNat)
    (hn : n ≤ 32)
    (ho : out = s.out.write s.mpos.toNat
      (toBytes (keepBytes (cipherBlock s.S (block (s.inp.read s.mpos.toNat n))) n) n)) :
    execDecPart s = .next { s with
      out := out,
      W := keepBytes (cipherBlock s.S (block (s.inp.read s.mpos.toNat n))) n,
      S := absorbBlock s.S (keepBytes (cipherBlock s.S (block (s.inp.read s.mpos.toNat n))) n),
      mpos := s.mlen, phase := Phase.finRound } := by
  unfold execDecPart; rw [remainder_eq_some.2 ⟨h, hn⟩, ho]

/-- TAG_WRITE (R176). -/
theorem execTagWrite_eq {s : State} {out : Memory} (ho : out = s.out.write s.mlen.toNat (toBytes s.T 32)) :
    execTagWrite s = .next { s with out := out, phase := Phase.zeroize } := by
  unfold execTagWrite; rw [ho]

/-- TAG_VERIFY, its next state in terms of the verdict (R182). -/
theorem execTagVerify_eq (s : State) :
    execTagVerify s = .next { s with
      fail := !s.verdict, phase := if s.verdict then Phase.zeroize else Phase.outWipe } := by
  unfold execTagVerify State.verdict State.suppliedTag
  cases h : equal32 s.T (block (s.inp.read s.mlen.toNat Config.tagBytes)) <;> rfl

/-- OUT_WIPE (R184). -/
theorem execOutWipe_eq {s : State} {out : Memory} (ho : out = s.out.wipe s.mlen.toNat) :
    execOutWipe s = .next { s with out := out, phase := Phase.zeroize } := by
  unfold execOutWipe; rw [ho]

-- a step

/-- The sixteen values of `PHASE` (R93). -/
theorem phase_cases (p : Phase) :
    p = Phase.idle ∨ p = Phase.initLoad ∨ p = Phase.initRound ∨ p = Phase.initWhiten ∨
    p = Phase.adFull ∨ p = Phase.adPart ∨ p = Phase.encFull ∨ p = Phase.encPart ∨ p = Phase.decFull ∨
    p = Phase.decPart ∨ p = Phase.finRound ∨ p = Phase.tagDerive ∨ p = Phase.tagWrite ∨
    p = Phase.tagVerify ∨ p = Phase.outWipe ∨ p = Phase.zeroize := by
  revert p; decide

/-- What the command decoder accepts (R94). -/
theorem decodeCmd_ok {c : BitVec 8} {i : Instr} (h : decodeCmd c = .ok i) :
    (c = 0x00#8 ∧ i = .nop) ∨ (c = 0x01#8 ∧ i = .enc) ∨ (c = 0x02#8 ∧ i = .dec) := by
  have hno : ∀ c : BitVec 8, c ≠ 0x00#8 → c ≠ 0x01#8 → c ≠ 0x02#8 →
      (decodeCmd c).toOption = none := by decide
  by_cases h0 : c = 0x00#8
  · subst h0; exact .inl ⟨rfl, by injection h with h; exact h.symm⟩
  · by_cases h1 : c = 0x01#8
    · subst h1; exact .inr (.inl ⟨rfl, by injection h with h; exact h.symm⟩)
    · by_cases h2 : c = 0x02#8
      · subst h2; exact .inr (.inr ⟨rfl, by injection h with h; exact h.symm⟩)
      · have h3 := hno c h0 h1 h2
        rw [h] at h3
        cases h3

/-- With no host line before it, a step runs the micro-operation `PHASE` names (R26, R190). -/
theorem step_core {s : State} (h : s.script = []) : step s = exec (decodeUop s.phase) s := by
  simp [step, fetch, h]

/-- All a step can do. The cases: the core moves; a command is accepted; a reset; an illegal command; a
register write; a host FILL; a host line that changes nothing of the core. -/
theorem step_cases {s t : State} (h : step s = .next t) :
    (∃ sc, (∀ l, s.script ≠ .reset :: l) ∧
      exec (decodeUop s.phase) { s with script := sc } = .next t) ∨
    (s.phase = Phase.idle ∧ ∃ c i rest, s.script = .wr (.cmd c) :: rest ∧ decodeCmd c = .ok i ∧
      exec i { s with script := rest } = .next t) ∨
    (∃ rest, s.script = .reset :: rest ∧ t = resetEvent { s with script := rest }) ∨
    (s.phase = Phase.idle ∧ ∃ c rest, s.script = .wr (.cmd c) :: rest ∧
      t = raise .illegalCmd { s with script := rest }) ∨
    (s.phase = Phase.idle ∧ ∃ w rest, s.script = .wr w :: rest ∧ t = writeReg w { s with script := rest }) ∨
    (s.phase = Phase.idle ∧ ∃ sp a bs rest, s.script = .fill sp a bs :: rest ∧
      t = ({ s with script := rest } : State).storeBytes sp a bs) ∨
    (∃ sc rd, (∀ l, s.script ≠ .reset :: l) ∧ t = { s with script := sc, readData := rd }) := by
  unfold step fetch at h
  split at h
  · -- the core, or a command
    rename_i i u hf
    split at hf
    · rename_i hs
      injection hf with hi hu
      subst hi hu
      exact .inl ⟨[], by simp [hs], by rw [← hs]; exact h⟩
    · rename_i w rest hs
      unfold fetchWrite at hf
      split at hf
      · cases hf
      · rename_i hb
        have hidle : s.phase = Phase.idle := busy_eq_false.1 (Bool.eq_false_iff.2 hb)
        split at hf
        · rename_i c
          split at hf
          · rename_i j hj
            injection hf with hi hu
            subst hi hu
            exact .inr (.inl ⟨hidle, c, j, rest, hs, hj, h⟩)
          · cases hf
        · cases hf
    · cases hf
    · cases hf
    · rename_i rest hs
      split at hf
      · injection hf with hi hu
        subst hi hu
        exact .inl ⟨s.script, by simp [hs], h⟩
      · cases hf
    · cases hf
    · cases hf
    · cases hf
    · rename_i n rest hs
      injection hf with hi hu
      subst hi hu
      exact .inl ⟨_, by simp [hs], h⟩
  · -- a host access
    rename_i o hf
    split at hf
    · cases hf
    · rename_i w rest hs
      unfold fetchWrite at hf
      split at hf
      · injection hf with ho
        subst ho
        injection h with h
        exact .inr (.inr (.inr (.inr (.inr (.inr ⟨rest, s.readData, by simp [hs], h.symm⟩)))))
      · rename_i hb
        have hidle : s.phase = Phase.idle := busy_eq_false.1 (Bool.eq_false_iff.2 hb)
        split at hf
        · rename_i c
          split at hf
          · cases hf
          · injection hf with ho
            subst ho
            injection h with h
            exact .inr (.inr (.inr (.inl ⟨hidle, c, rest, hs, h.symm⟩)))
        · injection hf with ho
          subst ho
          injection h with h
          exact .inr (.inr (.inr (.inr (.inl ⟨hidle, w, rest, hs, h.symm⟩))))
    · rename_i r rest hs
      injection hf with ho
      subst ho
      injection h with h
      exact .inr (.inr (.inr (.inr (.inr (.inr ⟨rest, _, by simp [hs], h.symm⟩)))))
    · rename_i sp a bs rest hs
      injection hf with ho
      subst ho
      unfold fillSpace at h
      split at h
      · cases h
      · rename_i hb
        have hidle : s.phase = Phase.idle := busy_eq_false.1 (Bool.eq_false_iff.2 hb)
        injection h with h
        exact .inr (.inr (.inr (.inr (.inr (.inl ⟨hidle, sp, a, bs, rest, hs, h.symm⟩)))))
    · rename_i rest hs
      split at hf
      · cases hf
      · injection hf with ho
        subst ho
        injection h with h
        exact .inr (.inr (.inr (.inr (.inr (.inr ⟨rest, _, by simp [hs], h.symm⟩)))))
    · rename_i a n rest hs
      injection hf with ho
      subst ho
      unfold dumpOut at h
      split at h
      · cases h
      · injection h with h
        exact .inr (.inr (.inr (.inr (.inr (.inr ⟨rest, _, by simp [hs], h.symm⟩)))))
    · rename_i rest hs
      injection hf with ho
      subst ho
      injection h with h
      exact .inr (.inr (.inl ⟨rest, hs, h.symm⟩))
    · rename_i rest hs
      injection hf with ho
      subst ho
      injection h with h
      exact .inr (.inr (.inr (.inr (.inr (.inr ⟨rest, s.readData, by simp [hs], h.symm⟩)))))
    · cases hf

end Sys2Proof.Machine
end

