-- ==== Sys2Proof/Laws/PerInstr.lean ====
section
/-! SUPPORT. The per-instruction family: every instruction is well formed, its encoding fits its format, and
decoding that encoding gives it back (30_encoding.md R90, R92, R93). -/

namespace Sys2Proof.Laws.RoundTrip

/-- The encoding is well formed and decodes to the instruction. -/
def Statement (i : Instr) : Prop := i.wf = true ∧ (encode i).wf = true ∧ decode (encode i) = .ok i

theorem nop : Statement .nop := ⟨rfl, rfl, rfl⟩
theorem enc : Statement .enc := ⟨rfl, rfl, rfl⟩
theorem dec : Statement .dec := ⟨rfl, rfl, rfl⟩
theorem idle : Statement .idle := ⟨rfl, rfl, rfl⟩
theorem initLoad : Statement .initLoad := ⟨rfl, rfl, rfl⟩
theorem initRound : Statement .initRound := ⟨rfl, rfl, rfl⟩
theorem initWhiten : Statement .initWhiten := ⟨rfl, rfl, rfl⟩
theorem adFull : Statement .adFull := ⟨rfl, rfl, rfl⟩
theorem adPart : Statement .adPart := ⟨rfl, rfl, rfl⟩
theorem encFull : Statement .encFull := ⟨rfl, rfl, rfl⟩
theorem encPart : Statement .encPart := ⟨rfl, rfl, rfl⟩
theorem decFull : Statement .decFull := ⟨rfl, rfl, rfl⟩
theorem decPart : Statement .decPart := ⟨rfl, rfl, rfl⟩
theorem finRound : Statement .finRound := ⟨rfl, rfl, rfl⟩
theorem tagDerive : Statement .tagDerive := ⟨rfl, rfl, rfl⟩
theorem tagWrite : Statement .tagWrite := ⟨rfl, rfl, rfl⟩
theorem tagVerify : Statement .tagVerify := ⟨rfl, rfl, rfl⟩
theorem outWipe : Statement .outWipe := ⟨rfl, rfl, rfl⟩
theorem zeroize : Statement .zeroize := ⟨rfl, rfl, rfl⟩

end Sys2Proof.Laws.RoundTrip
end

