-- ==== Sys2Proof/Laws/Run.lean ====
section
/-! SUPPORT. Laws of several steps in a row: splitting a run, the sixteen counted rounds of a round loop, one
block of associated data and one block of the message, and what no instruction changes. -/

namespace Sys2Proof.Machine

-- runs

@[simp] theorem run_zero (s : State) : run 0 s = .next s := rfl

/-- The first step of a run, where it answers a next state. -/
theorem run_succ {k : Nat} {s t : State} (h : step s = .next t) : run (k + 1) s = run k t := by
  simp [run, h]

/-- One step. -/
theorem run_one {s t : State} (h : step s = .next t) : run 1 s = .next t := run_succ h

/-- A run in two parts. -/
theorem run_add {k l : Nat} {s t : State} (h : run k s = .next t) : run (k + l) s = run l t := by
  induction k generalizing s with
  | zero => injection h with h; rw [h, Nat.zero_add]
  | succ k ih =>
    rw [Nat.add_right_comm]
    rw [run] at h ⊢
    split at h
    · exact ih h
    · cases h
    · cases h

/-- The idle core with no host line before it stays as it is (R198). -/
theorem run_idle {s : State} (hs : s.script = []) (hp : s.phase = Phase.idle) (k : Nat) : run k s = .next s := by
  induction k with
  | zero => rfl
  | succ k ih => rw [run_succ (t := s) (by rw [step_core hs, hp]; rfl), ih]

/-- No instruction writes `KEY`, `NONCE`, `ADLEN`, `MLEN`, `AD` or `IN` (R31 to R34, R37, R62), nor the two
fields that stand for the host. -/
theorem exec_operands {i : Instr} {s t : State} (h : exec i s = .next t) :
    t.key = s.key ∧ t.nonce = s.nonce ∧ t.adlen = s.adlen ∧ t.mlen = s.mlen ∧ t.ad = s.ad ∧
      t.inp = s.inp ∧ t.script = s.script ∧ t.readData = s.readData := by
  cases i <;> simp only [exec] at h
  · injection h with h; subst h; simp
  · injection h with h; subst h; rcases acceptCommand_cases false s with ⟨-, e⟩ | ⟨-, e⟩ <;> simp [e]
  · injection h with h; subst h; rcases acceptCommand_cases true s with ⟨-, e⟩ | ⟨-, e⟩ <;> simp [e]
  · injection h with h; subst h; simp
  · injection h with h; subst h; simp
  · rcases roundLoop_cases h with ⟨-, rfl⟩ | ⟨-, -, rfl⟩ <;> simp
  · injection h with h; subst h; simp
  · obtain ⟨-, rfl⟩ := execAdFull_next h; simp
  · obtain ⟨n, -, -, rfl⟩ := execAdPart_next h; simp
  · obtain ⟨-, _, -, rfl⟩ := execEncFull_next h; simp
  · obtain ⟨n, _, -, -, -, rfl⟩ := execEncPart_next h; simp
  · obtain ⟨-, _, -, rfl⟩ := execDecFull_next h; simp
  · obtain ⟨n, _, -, -, -, rfl⟩ := execDecPart_next h; simp
  · rcases roundLoop_cases h with ⟨-, rfl⟩ | ⟨-, -, rfl⟩ <;> simp
  · injection h with h; subst h; simp
  · injection h with h; subst h; simp
  · rcases execTagVerify_next h with ⟨-, rfl⟩ | ⟨-, rfl⟩ <;> simp
  · injection h with h; subst h; simp
  · injection h with h; subst h; simp

-- the round loops

/-- `k` counted rounds, the last of them with `RND` = 15 (R132, R172). The words fed to `Round` may depend on
the two length registers, which no step changes. -/
theorem run_roundLoop {x0 x1 : Len → Len → W128} {stay exit : Phase}
    (hstep : ∀ s : State, s.script = [] → s.phase = stay →
      step s = roundLoop (x0 s.adlen s.mlen) (x1 s.adlen s.mlen) stay exit s)
    (k : Nat) {s : State} (hs : s.script = []) (hp : s.phase = stay) (hr : s.rnd.toNat + k = 15) :
    run (k + 1) s = .next { s with
      S := roundIter (x0 s.adlen s.mlen) (x1 s.adlen s.mlen) (k + 1) s.S, rnd := 0#5, phase := exit } := by
  induction k generalizing s with
  | zero =>
    have h15 : s.rnd = 15#5 := BitVec.eq_of_toNat_eq hr
    exact run_one (by rw [hstep s hs hp, roundLoop_exit h15]; rfl)
  | succ k ih =>
    rw [run_succ (by rw [hstep s hs hp]; exact roundLoop_stay (by omega)), ih]
    · rfl
    · exact hs
    · rfl
    · have h1 : s.rnd.toNat < 15 := by omega
      have h2 : ∀ r : BitVec 5, r.toNat < 15 → (r + 1#5).toNat = r.toNat + 1 := by decide
      have h3 := h2 _ h1
      simp only [h3]; omega

/-- INIT_ROUND, the machine's step (R132). -/
theorem step_initRound {s : State} (hs : s.script = []) (hp : s.phase = Phase.initRound) :
    step s = roundLoop Config.z0 Config.z1 Phase.initRound Phase.initWhiten s := by
  rw [step_core hs, hp]; rfl

/-- FIN_ROUND, the machine's step (R172). -/
theorem step_finRound {s : State} (hs : s.script = []) (hp : s.phase = Phase.finRound) :
    step s = roundLoop (lengthWord s.adlen) (lengthWord s.mlen) Phase.finRound Phase.tagDerive s := by
  rw [step_core hs, hp]; rfl

-- blocks

/-- The bytes of block `j` of what a space holds (R97). -/
theorem chunk_read (m : Memory) (l j : Nat) :
    chunk (m.read 0 l) j = m.read (32 * j) (min 32 (l - 32 * j)) := by
  refine List.ext_getElem (by simp [chunk]) fun i h1 h2 => ?_
  simp only [chunk, List.getElem_take, List.getElem_drop, Memory.getElem_read, Nat.zero_add]

theorem toNat_block_position {l : Len} {j : Nat} (h : 32 * j ≤ l.toNat) :
    (BitVec.ofNat 64 (32 * j)).toNat = 32 * j := by
  rw [BitVec.toNat_ofNat, Nat.mod_eq_of_lt (Nat.lt_of_le_of_lt h l.isLt)]

/-- One step of the AD phase absorbs block `j` (R142, R144). -/
theorem step_ad {s : State} {j : Nat} (hs : s.script = []) (hj : 32 * j < s.adlen.toNat)
    (hpos : s.adpos.toNat = 32 * j) (hp : s.phase = adDispatch s.dir s.adlen s.adpos s.mlen s.mpos) :
    ∃ (w : W256) (p : Len), p.toNat = min (32 * (j + 1)) s.adlen.toNat ∧
      step s = .next { s with
        S := absorbBlock s.S (block (chunk s.adBytes j)), W := w, adpos := p
        phase := adDispatch s.dir s.adlen p s.mlen s.mpos } := by
  have hl := s.adlen.isLt
  rcases adDispatch_cases s.dir s.mlen s.mpos (adlen := s.adlen) (adpos := s.adpos) (by omega) with
    ⟨h, e⟩ | ⟨h, h2, e⟩ | ⟨h, e⟩
  · refine ⟨s.W, s.adpos + 32#64, ?_, ?_⟩
    · rw [toNat_add_block (by omega)]; omega
    · rw [step_core hs, hp, e, State.adBytes, chunk_read,
        show min 32 (s.adlen.toNat - 32 * j) = 32 by omega, ← hpos]
      exact execAdFull_eq (by omega)
  · refine ⟨block (chunk s.adBytes j), s.adlen, by omega, ?_⟩
    have hd : adDispatch s.dir s.adlen s.adlen s.mlen s.mpos = msgDispatch s.dir s.mlen s.mpos := by
      rcases adDispatch_cases s.dir s.mlen s.mpos (Nat.le_refl s.adlen.toNat) with ⟨h, _⟩ | ⟨h, _⟩ | ⟨_, h⟩
      · omega
      · omega
      · exact h
    rw [step_core hs, hp, e, hd, State.adBytes, chunk_read,
      show min 32 (s.adlen.toNat - 32 * j) = s.adlen.toNat - 32 * j by omega, ← hpos]
    exact execAdPart_eq (by omega) (by omega)
  · omega

/-- `msg_dispatch()` at the end of the message (R197). -/
theorem msgDispatch_end (d : Bool) (l : Len) : msgDispatch d l l = Phase.finRound := by
  rcases msgDispatch_cases d (Nat.le_refl l.toNat) with ⟨h, _⟩ | ⟨h, _⟩ | ⟨_, h⟩
  · omega
  · omega
  · exact h

/-- One step of the message pass of an ENC encrypts block `j` (R152, R162). -/
theorem step_enc {s : State} {j : Nat} (hs : s.script = []) (hd : s.dir = false)
    (hj : 32 * j < s.mlen.toNat) (hpos : s.mpos.toNat = 32 * j)
    (hp : s.phase = msgDispatch s.dir s.mlen s.mpos) :
    ∃ (w : W256) (p : Len), p.toNat = min (32 * (j + 1)) s.mlen.toNat ∧
      step s = .next { s with
        S := absorbBlock s.S (block (chunk s.inBytes j)), W := w, mpos := p
        out := s.out.write (32 * j)
          (toBytes (cipherBlock s.S (block (chunk s.inBytes j))) (chunk s.inBytes j).length)
        phase := msgDispatch s.dir s.mlen p } := by
  have hl := s.mlen.isLt
  rw [State.inBytes, chunk_read, Memory.length_read]
  rcases msgDispatch_cases s.dir (mlen := s.mlen) (mpos := s.mpos) (by omega) with
    ⟨h, ⟨h1, e⟩ | ⟨h1, e⟩⟩ | ⟨h, h2, ⟨h1, e⟩ | ⟨h1, e⟩⟩ | ⟨h, e⟩
  · rw [hd] at h1; cases h1
  · refine ⟨s.W, s.mpos + 32#64, ?_, ?_⟩
    · rw [toNat_add_block (by omega)]; omega
    · rw [step_core hs, hp, e, show min 32 (s.mlen.toNat - 32 * j) = 32 by omega, ← hpos]
      exact execEncFull_eq (by omega) rfl
  · rw [hd] at h1; cases h1
  · refine ⟨block (s.inp.read s.mpos.toNat (s.mlen.toNat - s.mpos.toNat)), s.mlen, by omega, ?_⟩
    rw [step_core hs, hp, e, msgDispatch_end,
      show min 32 (s.mlen.toNat - 32 * j) = s.mlen.toNat - 32 * j by omega, ← hpos]
    exact execEncPart_eq (by omega) (by omega) rfl
  · omega

/-- One step of the message pass of a DEC decrypts block `j` (R154, R164). -/
theorem step_dec {s : State} {j : Nat} (hs : s.script = []) (hd : s.dir = true)
    (hj : 32 * j < s.mlen.toNat) (hpos : s.mpos.toNat = 32 * j)
    (hp : s.phase = msgDispatch s.dir s.mlen s.mpos) :
    ∃ (w : W256) (p : Len), p.toNat = min (32 * (j + 1)) s.mlen.toNat ∧
      step s = .next { s with
        S := absorbBlock s.S (plainBlock s.S (chunk s.inBytes j)), W := w, mpos := p
        out := s.out.write (32 * j) (toBytes (plainBlock s.S (chunk s.inBytes j)) (chunk s.inBytes j).length)
        phase := msgDispatch s.dir s.mlen p } := by
  have hl := s.mlen.isLt
  rw [State.inBytes, chunk_read, plainBlock, Memory.length_read]
  rcases msgDispatch_cases s.dir (mlen := s.mlen) (mpos := s.mpos) (by omega) with
    ⟨h, ⟨h1, e⟩ | ⟨h1, e⟩⟩ | ⟨h, h2, ⟨h1, e⟩ | ⟨h1, e⟩⟩ | ⟨h, e⟩
  · refine ⟨s.W, s.mpos + 32#64, ?_, ?_⟩
    · rw [toNat_add_block (by omega)]; omega
    · rw [step_core hs, hp, e, show min 32 (s.mlen.toNat - 32 * j) = 32 by omega, ← hpos, keepBytes_all]
      exact execDecFull_eq (by omega) rfl
  · rw [hd] at h1; cases h1
  · refine ⟨keepBytes (cipherBlock s.S (block (s.inp.read s.mpos.toNat (s.mlen.toNat - s.mpos.toNat))))
      (s.mlen.toNat - s.mpos.toNat), s.mlen, by omega, ?_⟩
    rw [step_core hs, hp, e, msgDispatch_end,
      show min 32 (s.mlen.toNat - 32 * j) = s.mlen.toNat - 32 * j by omega, ← hpos]
    exact execDecPart_eq (by omega) (by omega) rfl
  · rw [hd] at h1; cases h1
  · omega

/-- Two writes in a row are one write (R65). -/
theorem Memory.write_append (m : Memory) (a : Nat) (bs cs : List Byte) :
    m.write a (bs ++ cs) = (m.write a bs).write (a + bs.length) cs := by
  induction bs generalizing m a with
  | nil => simp [Memory.write]
  | cons b bs ih =>
    rw [List.cons_append, Memory.write, ih, Memory.write, List.length_cons]
    congr 1; omega

end Sys2Proof.Machine
end

