-- ==== Sys2Proof/Tests/Slice0.lean ====
section
/-! SUPPORT. The model's own tests: ill-formed terms are refused, every row's word written out from
30_encoding.md decodes to its instruction, single steps give the values of 95_test_vectors.md, and for every
obligation with hypotheses a concrete state meets them. Numbers have the spec's byte 0 as their lowest byte. -/

open Sys2Proof Sys2Proof.Machine

set_option maxRecDepth 20000

namespace Sys2Proof.Tests

-- ---------------------------------------------------------------- WellFormed

theorem test_wf_cmd_too_wide : Encoding.wf ⟨.cmd, 256⟩ = false := by decide
theorem test_wf_uop_too_wide : Encoding.wf ⟨.uop, 16⟩ = false := by decide
theorem test_wf_cmd_last : Encoding.wf ⟨.cmd, 255⟩ = true := by decide
theorem test_wf_decrypt_short : (Pseudo.decrypt 0 0 [] (List.replicate 31 0x00#8)).wf = false := by decide
theorem test_wf_decrypt_tag_only : (Pseudo.decrypt 0 0 [] (List.replicate 32 0x00#8)).wf = true := by decide
/-- A string of 2^64 bytes or more is ill formed wherever a length register has to hold its length. -/
theorem test_wf_too_long (long ok : List Byte) (h : 2 ^ 64 ≤ long.length) :
    (Pseudo.encrypt 0 0 long ok).wf = false ∧ (Pseudo.encrypt 0 0 ok long).wf = false ∧
      (Pseudo.decrypt 0 0 long ok).wf = false := by
  simp only [Pseudo.wf, Nat.not_lt.2 h, decide_false, Bool.false_and, Bool.and_false, and_self]
theorem test_wf_decrypt_ct_too_long (long ok : List Byte) (h : 2 ^ 64 + 32 ≤ long.length) :
    (Pseudo.decrypt 0 0 ok long).wf = false := by
  have h2 : ¬ long.length - Config.tagBytes < 2 ^ 64 := by simp only [Config.tagBytes]; omega
  simp only [Pseudo.wf, h2, decide_false, Bool.and_false]

-- ---------------------------------------------------------------- words written out from R92 and R93

theorem test_decode_nop : decode ⟨.cmd, 0b0000_0000⟩ = .ok .nop := by decide
theorem test_decode_enc : decode ⟨.cmd, 0b0000_0001⟩ = .ok .enc := by decide
theorem test_decode_dec : decode ⟨.cmd, 0b0000_0010⟩ = .ok .dec := by decide
theorem test_decode_idle : decode ⟨.uop, 0b0000⟩ = .ok .idle := by decide
theorem test_decode_initLoad : decode ⟨.uop, 0b0001⟩ = .ok .initLoad := by decide
theorem test_decode_initRound : decode ⟨.uop, 0b0010⟩ = .ok .initRound := by decide
theorem test_decode_initWhiten : decode ⟨.uop, 0b0011⟩ = .ok .initWhiten := by decide
theorem test_decode_adFull : decode ⟨.uop, 0b0100⟩ = .ok .adFull := by decide
theorem test_decode_adPart : decode ⟨.uop, 0b0101⟩ = .ok .adPart := by decide
theorem test_decode_encFull : decode ⟨.uop, 0b0110⟩ = .ok .encFull := by decide
theorem test_decode_encPart : decode ⟨.uop, 0b0111⟩ = .ok .encPart := by decide
theorem test_decode_decFull : decode ⟨.uop, 0b1000⟩ = .ok .decFull := by decide
theorem test_decode_decPart : decode ⟨.uop, 0b1001⟩ = .ok .decPart := by decide
theorem test_decode_finRound : decode ⟨.uop, 0b1010⟩ = .ok .finRound := by decide
theorem test_decode_tagDerive : decode ⟨.uop, 0b1011⟩ = .ok .tagDerive := by decide
theorem test_decode_tagWrite : decode ⟨.uop, 0b1100⟩ = .ok .tagWrite := by decide
theorem test_decode_tagVerify : decode ⟨.uop, 0b1101⟩ = .ok .tagVerify := by decide
theorem test_decode_outWipe : decode ⟨.uop, 0b1110⟩ = .ok .outWipe := by decide
theorem test_decode_zeroize : decode ⟨.uop, 0b1111⟩ = .ok .zeroize := by decide
theorem test_decode_op_unassigned : decode ⟨.cmd, 0b0000_0011⟩ = .error (.opUnassigned 0b0011#4) := by decide
theorem test_decode_mbz : decode ⟨.cmd, 0b0001_0001⟩ = .error (.mbzNotZero 0b0001#4) := by decide
theorem test_decode_cmd_ff : decode ⟨.cmd, 0b1111_1111⟩ = .error (.mbzNotZero 0b1111#4) := by decide
theorem test_decode_too_wide : decode ⟨.uop, 0b1_0000⟩ = .error .tooWide := by decide
theorem test_table_word_cmd : decodeTableWord 8 0x02 = some .dec := by decide
theorem test_table_word_uop : decodeTableWord 4 0x0A = some .finRound := by decide
theorem test_table_word_illegal : decodeTableWord 8 0x10 = none := by decide

-- ---------------------------------------------------------------- helpers

/-- A component of the next state of an outcome. -/
def after {α : Type} (f : State → α) : Host.Outcome State Fault Refusal → Option α
  | .next t => some (f t)
  | _ => none

/-- `SI`, the cipher state of V-I2's last column. -/
def si : CipherState :=
  ⟨0x63b1b480fa493c2d8c3c24b909ec9e93#128,
   0x30cb42c263f83f078ef103819bd27782#128,
   0xccaa253a9424ac2fa734fb924bed88d9#128,
   0x1ff4dfed7edcfd012d658cfd1f11c34d#128,
   0x45813e6cff208f94accbc42bfc20e96d#128,
   0x41e46433372986180e7c020ddf887a40#128,
   0x6803076de810b234371ed1c362a37df7#128⟩

/-- The key of V-I2, bytes 00 01 .. 1f. -/
def keyI2 : W256 := 0x1f1e1d1c1b1a191817161514131211100f0e0d0c0b0a09080706050403020100#256

/-- The state `SI` in a core about to run the micro-operation `p`, every byte of `OUT` below 40 preset to 0xee. -/
def atSi (p : Phase) : State :=
  { State.reset with S := si, phase := p, out := (List.range 40).map (fun i => (i, 0xee#8)) }

/-- The 32 bytes of V-E1, 10 11 .. 2f. -/
def pt32 : List Byte := (List.range 32).map (fun i => BitVec.ofNat 8 (0x10 + i))

/-- The 32 bytes V-E1 writes. -/
def ct32 : List Byte := toBytes 0xbdd7c57b52037a12149535ea4d5577a5af1a44b3cec0316b90dd00bd370f03a3#256 32

/-- The tag of P3. -/
def tagP3 : W256 := 0x3c09ef257b49c07207c866b806b912ed39331ff9800bb978f3ac0fc01d36d073#256

/-- A state that meets `Inv`, DEC in flight at the micro-operation `p`, one block of `AD` and one of `IN`
still ahead. -/
def busyAt (p : Phase) : State :=
  { State.reset with phase := p, dir := true, adlen := 32#64, mlen := 32#64 }

-- ---------------------------------------------------------------- AesRound and Round (95 Part 2)

/-- The table of R112 is the formula of R112 on the corners of the table. -/
theorem test_sbox_formula : ∀ a : Fin 16, sbox (BitVec.ofNat 8 (17 * a.1)) = sboxFormula (BitVec.ofNat 8 (17 * a.1)) := by
  decide
theorem test_sbox_values : sbox 0x00#8 = 0x63#8 ∧ sbox 0x01#8 = 0x7c#8 ∧ sbox 0x53#8 = 0xed#8 ∧ sbox 0xff#8 = 0x16#8 := by
  decide
theorem test_gf_products :
    mul2 0x57#8 = 0xae#8 ∧ mul3 0x57#8 = 0xf9#8 ∧ mul2 0x80#8 = 0x1b#8 ∧ mul3 0xff#8 = 0x1a#8 := by decide
theorem test_subBytes_A2 : subBytes 0x0f0e0d0c0b0a09080706050403020100#128 = 0x76abd7fe2b670130c56f6bf27b777c63#128 := by
  decide
theorem test_shiftRows_A2 : shiftRows 0x76abd7fe2b670130c56f6bf27b777c63#128 = 0x2b6f7cfec577d7307bab01f276676b63#128 := by
  decide
theorem test_aesRound_A2 : aesRound 0x0f0e0d0c0b0a09080706050403020100#128 0 = 0x5c219c27615dd9b051336d2c455c6a6a#128 := by
  decide
theorem test_aesRound_A8 :
    aesRound 0xf0e0d0c0b0a090807060504030201000#128 0xfe76abd6f178a6dafa72afd2fd74aad6#128 =
      0xe48f12cbd843182d68ce5a85e810d889#128 := by decide

/-- V-R2, every input different. -/
theorem test_round_R2 :
    round
      ⟨0x0f0e0d0c0b0a09080706050403020100#128,
       0x1f1e1d1c1b1a19181716151413121110#128,
       0x2f2e2d2c2b2a29282726252423222120#128,
       0x3f3e3d3c3b3a39383736353433323130#128,
       0x4f4e4d4c4b4a49484746454443424140#128,
       0x5f5e5d5c5b5a59585756555453525150#128,
       0x6f6e6d6c6b6a69686766656463626160#128⟩
      0x7f7e7d7c7b7a79787776757473727170#128 0x8f8e8d8c8b8a89888786858483828180#128 =
      ⟨0x70707070707070707070707070707070#128,
       0x235fe15b1a27a0c826451858362e1b1a#128,
       0x3074e85a718147874e4ba78326954406#128,
       0x0f1f0e94fff4942ce5fd77eb510489a4#128,
       0xb4951ef4a9593f5692adb7f373945cdc#128,
       0xe0ee54195928622e3a66337a837501c2#128,
       0x83e74f380f81e0137531edf771c0e788#128⟩ := by decide

-- ---------------------------------------------------------------- single steps

/-- V-C1: STATUS after RESET, an illegal command, NOP, ENC. -/
theorem test_status_reset : status State.reset = 0x00#8 := by decide
theorem test_status_illegal :
    after status (step { State.reset with script := [.wr (.cmd 0x03#8)] }) = some 0x08#8 := by decide
theorem test_nop_keeps_status :
    after status (exec .nop { State.reset with err := 2#2 }) = some 0x08#8 := by decide
theorem test_enc_status : after status (exec .enc { State.reset with err := 2#2 }) = some 0x01#8 := by decide
theorem test_dec_status : after status (exec .dec State.reset) = some 0x11#8 := by decide
/-- P10: a command while BUSY = 1 is ignored. -/
theorem test_dec_ignored_while_busy :
    after status (exec .dec { State.reset with phase := Phase.initRound }) = some 0x01#8 := by decide
/-- V-C1: from 0x12, CMD 0xff gives 0x18. -/
theorem test_illegal_keeps_dir :
    after status (step { State.reset with done := true, dir := true, script := [.wr (.cmd 0xff#8)] }) =
      some 0x18#8 := by decide
theorem test_idle_stays : after (·.phase) (exec .idle State.reset) = some Phase.idle := by decide
theorem test_zeroize_mismatch :
    after status (exec .zeroize { busyAt Phase.zeroize with fail := true }) = some 0x16#8 := by decide
theorem test_zeroize_clears :
    after (fun t => (t.S, t.W, t.T, t.adpos, t.mpos, t.fail))
      (exec .zeroize { atSi Phase.zeroize with W := 1, T := 2, adpos := 3, mpos := 4, fail := true }) =
      some (CipherState.zero, 0, 0, 0, 0, false) := by decide
/-- V-I2: after INIT_LOAD. -/
theorem test_initLoad_I2 :
    after (fun t => (t.S.s0, t.S.s3, t.S.s5))
      (exec .initLoad { State.reset with key := keyI2, nonce := 0xafaeadacabaaa9a8a7a6a5a4a3a2a1a0#128 }) =
      some (0x1f1e1d1c1b1a19181716151413121110#128, 0x0f0e0d0c0b0a09080706050403020100#128,
        0xb0b0b0b0b0b0b0b0b0b0b0b0b0b0b0b0#128) := by decide
/-- V-I1: after the 1st INIT_ROUND. -/
theorem test_initRound_I1 :
    after (fun t => (t.S.s1, t.S.s3, t.S.s4, t.rnd))
      (exec .initRound { State.reset with S :=
      ⟨0x00000000000000000000000000000000#128,
       0x00000000000000000000000000000000#128,
       0x428a2f98d728ae227137449123ef65cd#128,
       0x00000000000000000000000000000000#128,
       0xb5c0fbcfec4d3b2fe9b5dba58189dbbc#128,
       0x00000000000000000000000000000000#128,
       0x00000000000000000000000000000000#128⟩ }) =
      some (0x21e94cfbb44bcd41125427f2408c06ae#128, 0x013667cf39dd607e4ef3f676abbafb54#128,
        0xd6a398ac8f2e584c8ad6b8c6e2eab8df#128, 1#5) := by decide
theorem test_initRound_last :
    after (fun t => (t.phase, t.rnd)) (exec .initRound { State.reset with rnd := 15#5 }) =
      some (Phase.initWhiten, 0#5) := by decide
/-- V-I2: INIT_WHITEN takes the second column to the third. -/
theorem test_initWhiten_I2 :
    after (·.S) (exec .initWhiten { State.reset with key := keyI2, S :=
      ⟨0x6cbfb98cf14335258b3a21bd0aee9f93#128,
       0x3fc54fce68f2360f89f7068598d07682#128,
       0xd3b438268f3eb537b022ee8658ff99c9#128,
       0x10fad2e175d6f4092a6389f91c13c24d#128,
       0x4a8f3360f42a869cabcdc12fff22e86d#128,
       0x5efa792f2c339f00196a1719cc9a6b50#128,
       0x771d1a71f30aab2c2008c4d771b16ce7#128⟩ }) = some si := by decide

/-- V-A1: AD_FULL from `SI`. -/
theorem test_adFull_A1 :
    after (fun t => (t.S.s1, t.S.s4, t.adpos, t.W))
      (exec .adFull { atSi Phase.adFull with
        adlen := 32#64, ad := (List.range 32).map (fun i => (i, BitVec.ofNat 8 (0x40 + i))) }) =
      some (0xb9329d16b334bdc59c739c07dcc84779#128, 0x3eb1703a68d44743db68b37f14992b67#128,
        32#64, 0) := by decide
/-- V-A2: AD_PART from `SI`. -/
theorem test_adPart_A2 :
    after (fun t => (t.S.s1, t.S.s4, t.adpos, t.W))
      (exec .adPart { atSi Phase.adPart with
        adlen := 5#64, ad := [(0, 0xde#8), (1, 0xad#8), (2, 0xbe#8), (3, 0xef#8), (4, 0x01#8), (5, 0x77#8)] }) =
      some (0xf67cd05af87ef48ddb35d9427034abe7#128, 0x61ef2d66338e1e1b8c3ee62b47cb7a37#128,
        5#64, 0x01efbeadde#256) := by decide
/-- V-E1: ENC_FULL from `SI`; the byte after the block keeps its preset. -/
theorem test_encFull_E1 :
    after (fun t => (t.out.read 0 32, t.out.get 32))
      (exec .encFull { atSi Phase.encFull with mlen := 32#64, inp := Memory.write [] 0 pt32 }) =
      some (ct32, 0xee#8) := by decide
theorem test_encFull_E1_state :
    after (fun t => (t.S.s1, t.S.s4, t.mpos, t.phase))
      (exec .encFull { atSi Phase.encFull with mlen := 32#64, inp := Memory.write [] 0 pt32 }) =
      some (0xe962cd46e364ed95cc23cc578c981729#128, 0x4ec1004a18a43733ab18c30f64e95b17#128,
        32#64, Phase.finRound) := by decide
/-- V-D1: DEC_FULL from `SI`. -/
theorem test_decFull_D1 :
    after (fun t => t.out.read 0 32)
      (exec .decFull { atSi Phase.decFull with dir := true, mlen := 32#64, inp := Memory.write [] 0 ct32 }) =
      some pt32 := by decide
theorem test_decFull_D1_state :
    after (fun t => (t.S.s1, t.S.s4))
      (exec .decFull { atSi Phase.decFull with dir := true, mlen := 32#64, inp := Memory.write [] 0 ct32 }) =
      some (0xe962cd46e364ed95cc23cc578c981729#128, 0x4ec1004a18a43733ab18c30f64e95b17#128) := by decide
/-- V-P2: ENC_PART from `SI`; only 13 bytes leave the core. -/
theorem test_encPart_P2 :
    after (fun t => (t.out.read 0 14, t.mpos))
      (exec .encPart { atSi Phase.encPart with
        mlen := 13#64, inp := (List.range 13).map (fun i => (i, BitVec.ofNat 8 (0x61 + i))) }) =
      some (toBytes 0xeec2b9b1421aefac73cc407e70d2#112 14, 13#64) := by decide
/-- V-P1: ENC_PART of one byte. -/
theorem test_encPart_P1_state :
    after (fun t => (t.S.s1, t.S.s4, t.W))
      (exec .encPart { atSi Phase.encPart with mlen := 1#64, inp := [(0, 0x61#8)] }) =
      some (0xf67cd05af87ef48ddb35d9439f8a0658#128, 0x61ef2d66338e1e1b8c3ee62b47cb7a37#128,
        0x61#256) := by decide
/-- V-P1: DEC_PART of one byte; the bytes past it are zeroed before the round. -/
theorem test_decPart_P1_state :
    after (fun t => (t.S.s1, t.S.s4, t.W))
      (exec .decPart { atSi Phase.decPart with dir := true, mlen := 1#64, inp := [(0, 0xd2#8)] }) =
      some (0xf67cd05af87ef48ddb35d9439f8a0658#128, 0x61ef2d66338e1e1b8c3ee62b47cb7a37#128,
        0x61#256) := by decide
/-- V-P2: DEC_PART of 13 bytes. -/
theorem test_decPart_P2 :
    after (fun t => t.out.read 0 14)
      (exec .decPart { atSi Phase.decPart with
        dir := true, mlen := 13#64, inp := Memory.write [] 0 (toBytes 0xc2b9b1421aefac73cc407e70d2#104 13) }) =
      some ((List.range 13).map (fun i => BitVec.ofNat 8 (0x61 + i)) ++ [0xee#8]) := by decide
/-- V-F1: the 1st FIN_ROUND. -/
theorem test_finRound_F1 :
    after (fun t => (t.S.s1, t.S.s4, t.rnd))
      (exec .finRound { atSi Phase.finRound with adlen := 5#64, mlen := 13#64 }) =
      some (0xf67cd05af87ef48ddb35d9439f8a0611#128, 0x61ef2d66338e1e1b8c3ee62b47cb7a5f#128, 1#5) := by decide
/-- V-F1: TAG_DERIVE. -/
theorem test_tagDerive_F1 :
    after (fun t => (t.T, t.phase)) (exec .tagDerive { State.reset with S :=
      ⟨0xa51935f3d4f6aac8049295305814053c#128,
       0xa83548d94f8c6cb9e036f4cba4e1999b#128,
       0xa721a992f604b7ee7593d9779a4db299#128,
       0x7481c9ac5199092721db0674e0a753b5#128,
       0x90921bd0a41bab00daf771b992e733bb#128,
       0xa42b5d609139e1beab3c623f4feea306#128,
       0x10c536025a3c6db24c44a364ab99e7f6#128⟩ }) =
      some (0x247c70b26f1e270c3d8fb0e27690774bde8c1d143ce778b8b0ecbef8861f7d8b#256, Phase.tagWrite) := by
  decide
/-- V-F2: length encodings, the largest length among them. -/
theorem test_lengthWord_F2 :
    lengthWord 13#64 = 0x00000000000000000000000000000068#128 ∧ lengthWord 45#64 = 0x00000000000000000000000000000168#128 ∧
      lengthWord (BitVec.ofNat 64 (2 ^ 64 - 1)) = 0x0000000000000007fffffffffffffff8#128 := by decide
/-- P3: the tag at the odd offset 45. -/
theorem test_tagWrite_P3 :
    after (fun t => (t.out.get 44, t.out.get 45, t.out.get 76, t.out.get 77, t.phase))
      (exec .tagWrite { State.reset with T := tagP3, mlen := 45#64, phase := Phase.tagWrite }) =
      some (0x00#8, 0x73#8, 0x3c#8, 0x00#8, Phase.zeroize) := by decide
/-- V-T1: the tag of P3 with byte 31 changed, and unchanged. -/
theorem test_tagVerify_mismatch :
    after (fun t => (t.fail, t.phase))
      (exec .tagVerify { busyAt Phase.tagVerify with
        T := tagP3, inp := (Memory.write [] 32 (toBytes tagP3 32)).set 63 0xbc#8 }) =
      some (true, Phase.outWipe) := by decide
theorem test_tagVerify_match :
    after (fun t => (t.fail, t.phase))
      (exec .tagVerify { busyAt Phase.tagVerify with T := tagP3, inp := Memory.write [] 32 (toBytes tagP3 32) }) =
      some (false, Phase.zeroize) := by decide
/-- V-T2: OUT_WIPE. -/
theorem test_outWipe_T2 :
    after (fun t => (t.out.get 0, t.out.get 38, t.out.get 39))
      (exec .outWipe { atSi Phase.outWipe with mlen := 39#64, dir := true, fail := true }) =
      some (0x00#8, 0x00#8, 0xee#8) := by decide
theorem test_outWipe_empty :
    after (fun t => (t.out.get 0, t.phase))
      (exec .outWipe { atSi Phase.outWipe with dir := true, fail := true }) = some (0xee#8, Phase.zeroize) := by
  decide

-- ---------------------------------------------------------------- the host's side

theorem test_withFetchWord_enc : after status (step (State.reset.withFetchWord 8 0x01)) = some 0x01#8 := by decide
theorem test_withFetchWord_zeroize :
    after status (step (State.reset.withFetchWord 4 0xF)) = some 0x02#8 := by decide
theorem test_key_reads_zero :
    after (·.readData) (step { State.reset with key := keyI2, script := [.rd .key] }) = some (some (.wide 0)) := by
  decide
theorem test_reset_keeps_spaces :
    after (fun t => (t.out.get 0, t.key, t.phase, t.S))
      (step { atSi Phase.decPart with key := keyI2, script := [.reset] }) =
      some (0xee#8, 0, Phase.idle, CipherState.zero) := by decide
/-- R102: DECRYPT writes ADLEN and MLEN, the tag not counted, and dumps the plaintext alone. -/
theorem test_decrypt_lines :
    Pseudo.lines (.decrypt 1 2 [0xaa#8] (List.replicate 33 0x00#8)) =
      [.wr (.key 1), .wr (.nonce 2), .wr (.adlen 1), .wr (.mlen 1), .fill .ad 0 [0xaa#8],
       .fill .inp 0 (List.replicate 33 0x00#8), .wr (.cmd 0x02#8), .wait, .rd .status, .dump 0 1] := by decide

-- ---------------------------------------------------------------- witnesses: states that meet the hypotheses

theorem test_witness_CommandDecoderIsTotal : 3 ≤ (0x03#8).toNat ∧ 3 ≤ (0xff#8).toNat := by decide

theorem test_witness_StepRunsThePhaseMicroOp :
    State.reset.script = [] ∧
    ({ State.reset with script := [.core 1] } : State).script = .core (0 + 1) :: [] ∧
    ({ busyAt Phase.adFull with script := [.wait] } : State).script = .wait :: [] ∧
    ({ busyAt Phase.adFull with script := [.wait] } : State).phase ≠ Phase.idle := by decide

theorem test_witness_StepRunsTheDecodedCommand :
    State.reset.phase = Phase.idle ∧
    ({ State.reset with script := [.wr (.cmd 0x02#8)] } : State).script = .wr (.cmd 0x02#8) :: [] ∧
    decodeCmd 0x00#8 = .ok .nop ∧ decodeCmd 0x02#8 = .ok .dec := by decide

theorem test_witness_IllegalCommandOnlySetsErr :
    ({ State.reset with script := [.wr (.cmd 0x03#8)] } : State).script = .wr (.cmd 0x03#8) :: [] ∧
    State.reset.phase = Phase.idle ∧ 3 ≤ (0x03#8).toNat ∧ 3 ≤ (0xff#8).toNat := by decide

theorem test_witness_OperandsFixedWhileBusy :
    (busyAt Phase.zeroize).phase ≠ Phase.idle ∧
    ({ busyAt Phase.zeroize with script := [.wr (.key 5)] } : State).script = .wr (.key 5) :: [] ∧
    ({ busyAt Phase.zeroize with script := [.rd .key] } : State).script = .rd .key :: [] ∧
    (∀ l, (busyAt Phase.zeroize).script ≠ .reset :: l) ∧ ∃ t, step (busyAt Phase.zeroize) = .next t :=
  ⟨by decide, by decide, by decide, (fun _ h => nomatch h), ⟨_, rfl⟩⟩

theorem test_witness_HostRegisterAccess :
    State.reset.phase = Phase.idle ∧
    ({ State.reset with script := [.wr (.mlen 7)] } : State).script = .wr (.mlen 7) :: [] ∧
    ({ State.reset with script := [.rd .status] } : State).script = .rd .status :: [] := by decide

/-- A DEC in flight meets the invariant, in the first and in the last micro-operation of its data phases. -/
theorem test_inv_adFull : Inv (busyAt Phase.adFull) := by constructor <;> decide
theorem test_inv_decFull : Inv { busyAt Phase.decFull with adpos := 32#64 } := by constructor <;> decide
theorem test_inv_tagVerify : Inv { busyAt Phase.tagVerify with adpos := 32#64, mpos := 32#64, T := tagP3 } := by
  constructor <;> decide
theorem test_inv_after_mismatch : Inv { State.reset with dir := true, done := true, err := 1#2, key := keyI2 } := by
  constructor <;> decide

theorem test_witness_StatusIsLegal : ∃ s t : State, Inv s ∧ Inv t ∧ status s = 0x11#8 ∧ status t = 0x16#8 :=
  ⟨_, _, test_inv_adFull, test_inv_after_mismatch, by decide, by decide⟩

theorem test_witness_HostFillAndDumpWhileIdle :
    (atSi Phase.idle).phase = Phase.idle ∧ SpacesWf (atSi Phase.idle) ∧
    ({ atSi Phase.idle with script := [.fill .out 39 [1, 2]] } : State).script = .fill .out 39 [1, 2] :: [] ∧
    ({ atSi Phase.idle with script := [.dump 39 2] } : State).script = .dump 39 2 :: [] := by decide

theorem test_witness_HostSpaceAccessRefusedWhileBusy :
    (busyAt Phase.initLoad).phase ≠ Phase.idle ∧
    ({ busyAt Phase.initLoad with script := [.fill .ad 0 []] } : State).script = .fill .ad 0 [] :: [] ∧
    ({ busyAt Phase.initLoad with script := [.dump 0 0] } : State).script = .dump 0 0 :: [] := by decide

theorem test_witness_WaitEndsWhenIdle :
    State.reset.phase = Phase.idle ∧
    ({ State.reset with script := [.wait] } : State).script = .wait :: [] ∧
    ({ State.reset with script := [.core 0] } : State).script = .core 0 :: [] := by decide

theorem test_witness_ResetValues :
    ({ atSi Phase.decPart with script := [.reset] } : State).script = .reset :: [] := by decide

theorem test_witness_EncAcceptance_DecAcceptance :
    State.reset.phase = Phase.idle ∧ (busyAt Phase.zeroize).phase ≠ Phase.idle := by decide

theorem test_witness_InitRoundCountsToWhiten_FinRoundCountsToTagDerive :
    ({ State.reset with rnd := 15#5 } : State).rnd = 15 ∧ ({ State.reset with rnd := 14#5 } : State).rnd.toNat < 15 ∧
    State.reset.rnd.toNat < 15 := by decide

/-- One pair of lengths and positions for each clause, at the edges of its range. -/
theorem test_witness_DispatchFunctions :
    ((0#64).toNat + 32 ≤ (32#64).toNat) ∧
    ((0xffffffffffffffdf#64).toNat + 32 ≤ (0xffffffffffffffff#64).toNat) ∧
    ((0#64).toNat < (31#64).toNat ∧ (31#64).toNat < (0#64).toNat + 32) ∧
    ((0xfffffffffffffffe#64).toNat < (0xffffffffffffffff#64).toNat ∧
      (0xffffffffffffffff#64).toNat < (0xfffffffffffffffe#64).toNat + 32) ∧
    ((0xffffffffffffffff#64).toNat = (0xffffffffffffffff#64).toNat) := by decide

theorem test_witness_AdFullAbsorbsBlock :
    (busyAt Phase.adFull).adpos.toNat + 32 ≤ (busyAt Phase.adFull).adlen.toNat ∧
    (∃ s : State, s.adpos = 0xffffffffffffffdf#64 ∧ s.adpos.toNat + 32 ≤ s.adlen.toNat) :=
  ⟨by decide, { State.reset with adpos := 0xffffffffffffffdf#64, adlen := 0xffffffffffffffff#64 }, rfl, by decide⟩

/-- Remainders of 1 and of 31 bytes. -/
theorem test_witness_AdPartAbsorbsPaddedRemainder :
    (∃ s : State, s.adlen.toNat = s.adpos.toNat + 1 ∧ s.adpos.toNat < s.adlen.toNat ∧
      s.adlen.toNat < s.adpos.toNat + 32) ∧
    (∃ s : State, s.adlen.toNat = s.adpos.toNat + 31 ∧ s.adpos.toNat < s.adlen.toNat ∧
      s.adlen.toNat < s.adpos.toNat + 32) :=
  ⟨⟨{ State.reset with adlen := 1 }, by decide⟩, ⟨{ State.reset with adlen := 31 }, by decide⟩⟩

theorem test_witness_EncFullEncryptsBlock :
    let s : State := { atSi Phase.encFull with mlen := 32#64 }
    s.out.wf ∧ s.dir = false ∧ s.mpos.toNat + 32 ≤ s.mlen.toNat := by decide

theorem test_witness_DecFullDecryptsBlock :
    let s : State := { atSi Phase.decFull with mlen := 32#64, dir := true }
    s.out.wf ∧ s.dir = true ∧ s.mpos.toNat + 32 ≤ s.mlen.toNat := by decide

/-- The DEC_FULL of what an ENC_FULL of one block left in `OUT`. -/
theorem test_witness_DecFullInvertsEncFull :
    ∃ s t u v : State, s.out.wf ∧ u.out.wf ∧ exec .encFull s = .next t ∧ exec .decFull u = .next v ∧
      u.S = s.S ∧ ∀ i, i < 32 → u.inp.get (u.mpos.toNat + i) = t.out.get (s.mpos.toNat + i) := by
  obtain ⟨s, hs⟩ : ∃ s : State, s = atSi Phase.encFull := ⟨_, rfl⟩
  have hm : s.mpos.toNat + 32 < 2 ^ 64 := by rw [hs]; decide
  have hw : s.out.wf := by rw [hs]; decide
  obtain ⟨o, ho⟩ : ∃ o : Memory, o = s.out.write s.mpos.toNat
    (toBytes (cipherBlock s.S (block (s.inp.read s.mpos.toNat 32))) 32) := ⟨_, rfl⟩
  obtain ⟨p, hp⟩ : ∃ p : Memory, p = s.out.write s.mpos.toNat
    (toBytes (cipherBlock s.S (block (o.read s.mpos.toNat 32))) 32) := ⟨_, rfl⟩
  exact ⟨s, _, { s with inp := o }, _, hw, hw, execEncFull_eq hm ho, execDecFull_eq hm hp, rfl, fun _ _ => rfl⟩

/-- Remainders of 1 and of 31 bytes. -/
theorem test_witness_EncPartEncryptsRemainder :
    (let s : State := { atSi Phase.encPart with mlen := 1#64 }; s.out.wf ∧ s.dir = false ∧ s.mpos.toNat < s.mlen.toNat ∧ s.mlen.toNat < s.mpos.toNat + 32) ∧
    (let s : State := { atSi Phase.encPart with mlen := 31#64 };
      s.out.wf ∧ s.dir = false ∧ s.mpos.toNat < s.mlen.toNat ∧ s.mlen.toNat < s.mpos.toNat + 32) := by decide

theorem test_witness_DecPartDecryptsRemainder :
    (let s : State := { atSi Phase.decPart with mlen := 1#64, dir := true };
      s.out.wf ∧ s.dir = true ∧ s.mpos.toNat < s.mlen.toNat ∧ s.mlen.toNat < s.mpos.toNat + 32) ∧
    (let s : State := { atSi Phase.decPart with mlen := 31#64, dir := true };
      s.out.wf ∧ s.dir = true ∧ s.mpos.toNat < s.mlen.toNat ∧ s.mlen.toNat < s.mpos.toNat + 32) := by decide

/-- The DEC_PART of what an ENC_PART of 13 bytes left in `OUT`. -/
theorem test_witness_DecPartInvertsEncPart :
    ∃ s t u v : State, s.out.wf ∧ u.out.wf ∧ exec .encPart s = .next t ∧ exec .decPart u = .next v ∧
      u.S = s.S ∧ s.mpos.toNat < s.mlen.toNat ∧ s.mlen.toNat < s.mpos.toNat + 32 ∧
      u.mlen.toNat - u.mpos.toNat = s.mlen.toNat - s.mpos.toNat ∧
      ∀ i, s.mpos.toNat + i < s.mlen.toNat → u.inp.get (u.mpos.toNat + i) = t.out.get (s.mpos.toNat + i) := by
  obtain ⟨s, hs⟩ : ∃ s : State, s = { atSi Phase.encPart with mlen := 13#64 } := ⟨_, rfl⟩
  have hm : s.mpos.toNat + 13 = s.mlen.toNat := by rw [hs]; decide
  have hw : s.out.wf := by rw [hs]; decide
  obtain ⟨o, ho⟩ : ∃ o : Memory, o = s.out.write s.mpos.toNat
    (toBytes (cipherBlock s.S (block (s.inp.read s.mpos.toNat 13))) 13) := ⟨_, rfl⟩
  obtain ⟨p, hp⟩ : ∃ p : Memory, p = s.out.write s.mpos.toNat
    (toBytes (keepBytes (cipherBlock s.S (block (o.read s.mpos.toNat 13))) 13) 13) := ⟨_, rfl⟩
  exact ⟨s, _, { s with inp := o }, _, hw, hw, execEncPart_eq hm (by decide) ho,
    execDecPart_eq hm (by decide) hp, rfl, by omega, by omega, rfl, fun _ _ => rfl⟩

theorem test_witness_TagWriteAppendsTheTag :
    (atSi Phase.tagWrite).out.wf ∧ (atSi Phase.tagWrite).dir = false := by decide

theorem test_witness_TagVerifyVerdict :
    (∃ s : State, s.dir = true ∧ ∀ i, i < 32 → byteAt s.T i = s.inp.get (s.mlen.toNat + i)) ∧
    (∃ s : State, s.dir = true ∧ ∃ i, i < 32 ∧ byteAt s.T i ≠ s.inp.get (s.mlen.toNat + i)) :=
  ⟨⟨{ busyAt Phase.tagVerify with T := tagP3, inp := Memory.write [] 32 (toBytes tagP3 32) }, by decide⟩,
   ⟨{ busyAt Phase.tagVerify with T := tagP3 }, rfl, 31, by decide, by decide⟩⟩

theorem test_witness_OutWipeErasesPlaintext :
    let s : State := { atSi Phase.outWipe with mlen := 39#64, fail := true }
    s.out.wf ∧ s.fail = true := by decide

/-- The first value of each range that faults. -/
theorem test_witness_FaultsOutsideTheSpecsStates :
    (31#5).toNat = 31 ∧ 2 ^ 64 ≤ (0xffffffffffffffe0#64).toNat + 32 ∧
    ((0#64).toNat < (1#64).toNat) ∧ ((0#64).toNat + 32 < (33#64).toNat) := by decide

theorem test_witness_AesRoundBytes_LengthWordIsExact_SboxIsAffineOfInverse :
    (0 < 4 ∧ 3 < 4) ∧ (9 ≤ 9 ∧ 9 ≤ 15 ∧ 9 ≤ 15 ∧ 15 ≤ 15) ∧ (0x00#8 = 0 ∧ 0x01#8 ≠ (0 : Byte)) := by decide

theorem test_witness_IdleCoreHoldsNoSecret :
    IdleClean State.reset ∧ (∃ t, step { State.reset with script := [.wr (.cmd 0x01#8)] } = .next t) :=
  ⟨by decide, _, rfl⟩

theorem test_witness_InitializationIsInit :
    (busyAt Phase.initLoad).script = [] ∧ (busyAt Phase.initLoad).phase = Phase.initLoad := by decide

/-- No AD, and one byte more than one block. -/
theorem test_witness_AdPhaseIsAbsorb :
    (let s : State := atSi Phase.finRound;
      s.script = [] ∧ s.adpos = 0 ∧ s.phase = adDispatch s.dir s.adlen 0 s.mlen s.mpos) ∧
    (let s : State := { atSi Phase.adFull with adlen := 33#64 };
      s.script = [] ∧ s.adpos = 0 ∧ s.phase = adDispatch s.dir s.adlen 0 s.mlen s.mpos) := by decide

theorem test_witness_FinalizationIsFinalize :
    (atSi Phase.finRound).script = [] ∧ (atSi Phase.finRound).phase = Phase.finRound ∧
    (atSi Phase.finRound).rnd = 0 := by decide

/-- An ENC of nothing, accepted. -/
def encEmpty : State := { State.reset with phase := Phase.initLoad }

theorem test_witness_NetEffectOfEnc :
    encEmpty.script = [] ∧ encEmpty.phase = Phase.initLoad ∧ encEmpty.dir = false ∧ encEmpty.out.wf ∧
    0 < encEmpty.opSteps ∧ run 0 encEmpty = .next encEmpty :=
  ⟨rfl, rfl, rfl, by decide, by decide, rfl⟩

/-- A DEC of nothing with the bytes of `m` in `IN`, accepted. -/
def decEmpty (m : Memory) : State :=
  { State.reset with phase := Phase.initLoad, dir := true, inp := m }

theorem decEmpty_decTag (m : Memory) : (decEmpty m).decTag = (decEmpty []).decTag := by
  have h : ∀ m : Memory, m.read 0 (0#64).toNat = [] := fun _ => rfl
  simp only [State.decTag, State.inBytes, State.startState, State.adBytes, decEmpty, State.reset, h]

/-- The bytes of `w`, laid out from offset 0. -/
theorem read_laid_out (w : W256) : ∃ m : Memory, block (m.read 0 32) = w := by
  have h := Memory.read_write Memory.wf_nil 0 (toBytes w 32)
  rw [length_toBytes] at h
  exact ⟨Memory.write [] 0 (toBytes w 32), by rw [h, block_toBytes]⟩

/-- The DEC of the tag it computes, and of that tag with its lowest bit changed. -/
theorem test_witness_NetEffectOfDec :
    (∃ s : State, s.script = [] ∧ s.phase = Phase.initLoad ∧ s.dir = true ∧ s.out.wf ∧
      s.decTag = s.suppliedTag) ∧
    (∃ s : State, s.script = [] ∧ s.phase = Phase.initLoad ∧ s.dir = true ∧ s.out.wf ∧
      s.decTag ≠ s.suppliedTag) := by
  obtain ⟨m, hm⟩ := read_laid_out (decEmpty []).decTag
  obtain ⟨n, hn⟩ := read_laid_out ((decEmpty []).decTag ^^^ 1#256)
  refine ⟨⟨decEmpty m, rfl, rfl, rfl, Memory.wf_nil, ?_⟩, ⟨decEmpty n, rfl, rfl, rfl, Memory.wf_nil, ?_⟩⟩
  · rw [decEmpty_decTag, ← hm]; rfl
  · rw [decEmpty_decTag, show (decEmpty n).suppliedTag = block (n.read 0 32) from rfl, hn]
    intro h
    have h2 := congrArg (fun x => (decEmpty []).decTag ^^^ x) h
    simp only [BitVec.xor_self, ← BitVec.xor_assoc, BitVec.zero_xor] at h2
    exact absurd h2 (by decide)

theorem run_next_succ {k : Nat} {s t : State} (h : step s = .next t) (h2 : ∃ u, run k t = .next u) :
    ∃ u, run (k + 1) s = .next u := by rw [run_succ h]; exact h2

theorem run_next_add {k l : Nat} {s t : State} (h : run k s = .next t) (h2 : ∃ u, run l t = .next u) :
    ∃ u, run (k + l) s = .next u := by rw [run_add h]; exact h2

/-- The ENC of nothing comes to its end. -/
theorem encEmpty_ends : ∃ t, run encEmpty.opSteps encEmpty = .next t := by
  have h2 := fun S => run_roundLoop (x0 := fun a _ => lengthWord a) (x1 := fun _ m => lengthWord m)
    (exit := Phase.tagDerive) (fun s h1 h2 => step_finRound h1 h2) 15
    (s := { encEmpty with S := S, phase := Phase.finRound }) rfl rfl rfl
  have h3 : ∀ S, ∃ t, run 3 { encEmpty with S := S, phase := Phase.tagDerive } = .next t := fun S =>
    run_next_succ (t := { encEmpty with S := S, T := foldTag S, phase := Phase.tagWrite }) rfl
      (run_next_succ (execTagWrite_eq rfl) ⟨_, run_one rfl⟩)
  exact run_next_succ (k := 16 + (1 + (16 + 3))) (t := { encEmpty with
      S := loadState encEmpty.key encEmpty.nonce, rnd := 0#5, adpos := 0#64, mpos := 0#64, fail := false,
      phase := Phase.initRound }) rfl
    (run_next_add (run_roundLoop (x0 := fun _ _ => Config.z0) (x1 := fun _ _ => Config.z1)
        (exit := Phase.initWhiten) (fun s h1 h2 => step_initRound h1 h2) 15 rfl rfl rfl)
      (run_next_add (k := 1) (l := 16 + 3) (run_one rfl) (run_next_add (h2 _) (h3 _))))

theorem test_witness_DecryptOfEncryptIsPlaintext :
    ∃ s t u : State,
      (s.script = [] ∧ s.phase = Phase.initLoad ∧ s.dir = false ∧ s.out.wf ∧ run s.opSteps s = .next t) ∧
      (u.script = [] ∧ u.phase = Phase.initLoad ∧ u.dir = true ∧ u.out.wf) ∧
      u.key = s.key ∧ u.nonce = s.nonce ∧ u.adlen = s.adlen ∧ u.mlen = s.mlen ∧ u.adBytes = s.adBytes ∧
      u.inp.read 0 (u.mlen.toNat + 32) = t.out.read 0 (s.mlen.toNat + 32) := by
  obtain ⟨t, ht⟩ := encEmpty_ends
  exact ⟨encEmpty, t, { encEmpty with dir := true, inp := t.out }, ⟨rfl, rfl, rfl, by decide, ht⟩,
    ⟨rfl, rfl, rfl, Memory.wf_nil⟩, rfl, rfl, rfl, rfl, rfl, rfl⟩

theorem adFull_steps : ∃ t, step (busyAt Phase.adFull) = .next t :=
  ⟨_, (step_core rfl).trans (execAdFull_eq (s := busyAt Phase.adFull) (by decide))⟩

theorem decFull_steps : ∃ t, step { busyAt Phase.decFull with adpos := 32#64 } = .next t :=
  ⟨_, (step_core rfl).trans (execDecFull_eq (s := { busyAt Phase.decFull with adpos := 32#64 }) (by decide) rfl)⟩

theorem tagVerify_steps (S : CipherState) : ∃ t, step { atSi Phase.tagVerify with S := S } = .next t :=
  ⟨_, (step_core rfl).trans (execTagVerify_eq { atSi Phase.tagVerify with S := S })⟩

theorem test_witness_EveryStepKeepsTheInvariant : ∃ s t : State, Inv s ∧ s.script = [] ∧ step s = .next t :=
  adFull_steps.elim fun t h => ⟨_, t, test_inv_adFull, rfl, h⟩

/-- A step of the core, and the refused line. -/
theorem test_witness_NoStepFaultsUnderTheInvariant :
    Inv (busyAt Phase.adFull) ∧ Inv { busyAt Phase.adFull with script := [.dump 0 1] } ∧
    step { busyAt Phase.adFull with script := [.dump 0 1] } = .refused .spaceOwnedByCore :=
  ⟨test_inv_adFull, by constructor <;> decide, rfl⟩

theorem test_witness_OnlyEncOrDecLeavesIdle :
    ∃ s t : State, s.phase = Phase.idle ∧ step s = .next t ∧ t.phase ≠ Phase.idle :=
  ⟨{ State.reset with script := [.wr (.cmd 0x02#8)] }, _, rfl, rfl, by decide⟩

theorem test_witness_OnlyZeroizeOrResetReachesIdle :
    (∃ s t : State, s.phase ≠ Phase.idle ∧ step s = .next t ∧ t.phase = Phase.idle) ∧
    (∃ s t : State, s.script = [.reset] ∧ s.phase ≠ Phase.idle ∧ step s = .next t ∧ t.phase = Phase.idle) :=
  ⟨⟨busyAt Phase.zeroize, _, by decide, rfl, rfl⟩,
   ⟨{ busyAt Phase.adFull with script := [.reset] }, _, rfl, by decide, rfl, rfl⟩⟩

/-- Two states with different secrets, at a micro-operation other than TAG_VERIFY and, with equal verdicts, at
TAG_VERIFY. -/
theorem test_witness_ControlFlowIsPublic :
    (∃ s u t v : State, s.S ≠ u.S ∧ s.script = [] ∧ u.script = [] ∧ SamePublicControl s u ∧
      (s.phase = Phase.tagVerify → s.verdict = u.verdict) ∧ step s = .next t ∧ step u = .next v) ∧
    (∃ s u t v : State, s.S ≠ u.S ∧ s.phase = Phase.tagVerify ∧ s.script = [] ∧ u.script = [] ∧
      SamePublicControl s u ∧ (s.phase = Phase.tagVerify → s.verdict = u.verdict) ∧ step s = .next t ∧
      step u = .next v) :=
  (tagVerify_steps si).elim fun t ht => (tagVerify_steps CipherState.zero).elim fun v hv =>
  ⟨⟨atSi Phase.initWhiten, { atSi Phase.initWhiten with S := CipherState.zero }, _, _, by decide, rfl, rfl,
     by decide, (fun h => absurd h (by decide)), rfl, rfl⟩,
   ⟨{ atSi Phase.tagVerify with S := si }, { atSi Phase.tagVerify with S := CipherState.zero }, t, v,
     by decide, rfl, rfl, rfl, by decide, (fun _ => rfl), ht, hv⟩⟩

/-- Two states that differ in the key, the cipher state and the micro-operation. -/
theorem test_witness_RegisterReadsHideSecrets :
    let s : State := atSi Phase.initRound
    let u : State := { busyAt Phase.decPart with key := keyI2, adlen := 0, mlen := 0, dir := false }
    busy s = busy u ∧ s.nonce = u.nonce ∧ s.adlen = u.adlen ∧ s.mlen = u.mlen ∧ s.done = u.done ∧
      s.err = u.err ∧ s.dir = u.dir ∧ s.S ≠ u.S ∧ s.key ≠ u.key := by decide

theorem test_witness_CoreWritesOnlyItsOutput :
    ∃ s t : State, Inv s ∧ s.script = [] ∧ s.dir = true ∧ s.mlen.toNat ≤ 32 ∧ step s = .next t :=
  decFull_steps.elim fun t h => ⟨_, t, test_inv_decFull, rfl, rfl, by decide, h⟩

/-- Two contents of `OUT` that differ in the bytes around the ends of what each kind of writing step writes: a
block, a remainder of one byte, the tag, and the wipe. -/
theorem test_witness_CoreNeverReadsOut :
    let m : Memory := [(0, 0x5a#8), (31, 0x5a#8), (32, 0x5a#8), (33, 0x5a#8), (63, 0x5a#8), (64, 0x5a#8)]
    let block : State := busyAt Phase.decFull
    let rest : State := { busyAt Phase.decPart with mlen := 33#64, mpos := 32#64 }
    let tag : State := { busyAt Phase.tagWrite with dir := false }
    let erase : State := busyAt Phase.outWipe
    m.wf ∧ (∀ s ∈ [block, rest, tag, erase], s.script = [] ∧ s.out.wf ∧ ∃ t, step s = .next t) ∧
      (WritesOut block 0 ∧ WritesOut block 31 ∧ ¬ WritesOut block 32) ∧
      (¬ WritesOut rest 31 ∧ WritesOut rest 32 ∧ ¬ WritesOut rest 33) ∧
      (¬ WritesOut tag 31 ∧ WritesOut tag 32 ∧ WritesOut tag 63 ∧ ¬ WritesOut tag 64) ∧
      WritesOut erase 0 ∧ WritesOut erase 31 ∧ ¬ WritesOut erase 32 := by
  refine ⟨by decide, ?_, by decide, by decide, by decide, by decide⟩
  simp only [List.forall_mem_cons, List.not_mem_nil, false_implies, implies_true, and_true]
  exact ⟨⟨rfl, Memory.wf_nil, _, (step_core rfl).trans (execDecFull_eq (s := busyAt Phase.decFull) (by decide) rfl)⟩,
    ⟨rfl, Memory.wf_nil, _, (step_core rfl).trans (execDecPart_eq (n := 1)
      (s := { busyAt Phase.decPart with mlen := 33#64, mpos := 32#64 }) (by decide) (by decide) rfl)⟩,
    ⟨rfl, Memory.wf_nil, _, (step_core rfl).trans
      (execTagWrite_eq (s := { busyAt Phase.tagWrite with dir := false }) rfl)⟩,
    ⟨rfl, Memory.wf_nil, _, (step_core rfl).trans (execOutWipe_eq (s := busyAt Phase.outWipe) rfl)⟩⟩

/-- Other bytes at and past the last byte the operation may read, in both spaces. -/
theorem test_witness_CoreReadsOnlyItsInput :
    ∃ (s t : State) (ad inp : Memory), Inv s ∧ s.script = [] ∧ step s = .next t ∧
      ad.get 32 ≠ s.ad.get 32 ∧ inp.get 64 ≠ s.inp.get 64 ∧
      (∀ a, a < s.adlen.toNat → ad.get a = s.ad.get a) ∧
      (∀ a, a < s.mlen.toNat + (if s.dir then 32 else 0) → inp.get a = s.inp.get a) :=
  adFull_steps.elim fun t h =>
    ⟨_, t, [(32, 0x5a#8)], [(64, 0x5a#8)], test_inv_adFull, rfl, h, by decide, by decide, by decide, by decide⟩

end Sys2Proof.Tests
end

/-! PROOFS of the statements about the machine's state (10_state.md): the host registers (R30), the
operands held while an operation is in flight (R36), and reset (R41). First what a step does at each of the
three host lines they speak of, then the statements. -/

namespace Sys2Proof.Machine

-- a step at a register write, a register read and a reset line

/-- While `BUSY` = 1 a write of any register is ignored, `CMD` included (R36, R195). -/
theorem step_wr_of_busy {s : State} {w : RegWrite} {rest : List HostLine} (hp : s.phase ≠ Phase.idle)
    (hs : s.script = .wr w :: rest) : step s = .next { s with script := rest } := by
  have hb : busy { s with script := rest } = true := busy_eq_true.2 hp
  simp [step, fetch, hs, fetchWrite, hb]

/-- While `BUSY` = 0 a write of a register other than `CMD`, which is an event, is `writeReg` (R30). -/
theorem step_wr_of_idle {s : State} {w : RegWrite} {rest : List HostLine} (hp : s.phase = Phase.idle)
    (hw : w.reg ≠ .cmd) (hs : s.script = .wr w :: rest) :
    step s = .next (writeReg w { s with script := rest }) := by
  have hb : busy { s with script := rest } = false := busy_eq_false.2 hp
  cases w with
  | cmd c => exact absurd rfl hw
  | status v | adlen v | mlen v | nonce v | key v => simp [step, fetch, hs, fetchWrite, hb]

/-- What a register read returns does not depend on the host's further lines. -/
@[simp] theorem readReg_script (r : HostReg) (s : State) (rest : List HostLine) :
    readReg r { s with script := rest } = readReg r s := by
  cases r <;> rfl

/-- A register read, in any phase, only hands the host the register's value (R30, R36). -/
theorem step_rd {s : State} {r : HostReg} {rest : List HostLine} (hs : s.script = .rd r :: rest) :
    step s = .next { s with script := rest, readData := some (readReg r s) } := by
  simp [step, fetch, hs, readHostReg]

/-- A reset line is the reset event, in any phase (R41, R250). -/
theorem step_reset {s : State} {rest : List HostLine} (hs : s.script = .reset :: rest) :
    step s = .next (resetEvent { s with script := rest }) := by
  simp [step, fetch, hs]

/-- The operand registers do not change in flight: the core never writes them, and of the host's lines that
do, only a reset is not held back by `BUSY` = 1 (R36). -/
theorem step_operands_of_busy {s t : State} (hp : s.phase ≠ Phase.idle)
    (hr : ∀ l, s.script ≠ .reset :: l) (h : step s = .next t) :
    t.key = s.key ∧ t.nonce = s.nonce ∧ t.adlen = s.adlen ∧ t.mlen = s.mlen := by
  rcases step_cases h with ⟨sc, -, hcore⟩ | ⟨hidle, -⟩ | ⟨rest, hreset, -⟩ | ⟨hidle, -⟩ | ⟨hidle, -⟩ |
    ⟨hidle, -⟩ | ⟨sc, rd, -, rfl⟩
  · obtain ⟨hkey, hnonce, hadlen, hmlen, -⟩ := exec_operands hcore
    exact ⟨hkey, hnonce, hadlen, hmlen⟩
  · exact absurd hidle hp
  · exact absurd hreset (hr rest)
  · exact absurd hidle hp
  · exact absurd hidle hp
  · exact absurd hidle hp
  · exact ⟨rfl, rfl, rfl, rfl⟩

-- the statements

/-- Settles O7: the rules for a write and a read, and the operands kept by every case of `step_cases`. -/
theorem operandsFixedWhileBusy : Obligations.OperandsFixedWhileBusy := fun _ _ =>
  ⟨fun hp _ hs => step_wr_of_busy hp hs, fun _ hs => step_rd hs,
    fun _ hp hr h => step_operands_of_busy hp hr h⟩

/-- Settles O8: each register's write and read by the rule for its line, its reset value by evaluation. -/
theorem hostRegisterAccess : Obligations.HostRegisterAccess := by
  refine ⟨by decide, fun s rest hp => ⟨?status, ?adlen, ?mlen, ?nonce, ?key⟩, fun s rest r hs => ?read,
    by decide⟩
  case status | adlen | mlen | nonce | key => exact fun v hs => step_wr_of_idle hp (by simp [RegWrite.reg]) hs
  case read =>
    rw [step_rd hs]
    cases r <;> rfl

/-- Settles O14: the reset values by evaluation, the reset event by the rule for a reset line. -/
theorem resetValues : Obligations.ResetValues :=
  ⟨by decide, fun _ _ hs => step_reset hs⟩

end Sys2Proof.Machine

/-! PROOFS of the statements about the encodings (30_encoding.md): the command and micro-operation decoders
against the encoder (R92 to R95, R103), and the encoded lengths (R99). First what each decoder and the byte of
a value are, then the statements. -/

namespace Sys2Proof

open Machine

-- the decoders against the encoder

open Laws.RoundTrip in
/-- The per-instruction family, put together for every row of the two tables (R92, R93). -/
theorem roundTrip_all (i : Instr) : Statement i := by
  cases i
  exacts [nop, enc, dec, idle, initLoad, initRound, initWhiten, adFull, adPart, encFull, encPart, decFull,
    decPart, finRound, tagDerive, tagWrite, tagVerify, outWipe, zeroize]

/-- Decoding an instruction's encoding gives the instruction back (R92, R93). -/
theorem decode_encode (i : Instr) : decode (encode i) = .ok i :=
  have ⟨_, _, hround⟩ := roundTrip_all i
  hround

/-- A command word that the command decoder accepts is the whole encoding of what it answers (R92). -/
theorem encode_of_decodeCmd {c : BitVec 8} {i : Instr} (h : decodeCmd c = .ok i) :
    encode i = ⟨.cmd, c.toNat⟩ := by
  obtain ⟨rfl, rfl⟩ | ⟨rfl, rfl⟩ | ⟨rfl, rfl⟩ := decodeCmd_ok h <;> rfl

/-- Every value of `PHASE` is the encoding of the micro-operation it decodes to (R93). -/
theorem encode_decodeUop (p : Phase) : encode (decodeUop p) = ⟨.uop, p.toNat⟩ := by
  obtain rfl | rfl | rfl | rfl | rfl | rfl | rfl | rfl | rfl | rfl | rfl | rfl | rfl | rfl | rfl | rfl :=
    phase_cases p <;> rfl

/-- What the command format accepts: a number of 8 bits whose word the command decoder accepts (R90, R94). -/
theorem decode_cmd_ok {n : Nat} {i : Instr} (h : decode ⟨.cmd, n⟩ = .ok i) :
    n < 256 ∧ decodeCmd (BitVec.ofNat 8 n) = .ok i := by
  simp only [decode] at h
  split at h
  · exact ⟨‹_›, h⟩
  · cases h

/-- What the micro-operation format accepts: every number of 4 bits (R90, R93). -/
theorem decode_uop_ok {n : Nat} {i : Instr} (h : decode ⟨.uop, n⟩ = .ok i) :
    n < 16 ∧ decodeUop (BitVec.ofNat 4 n) = i := by
  simp only [decode] at h
  split at h
  · exact ⟨‹_›, Except.ok.inj h⟩
  · cases h

/-- Whatever decodes to an instruction is that instruction's encoding: no number that is no row of the tables
decodes, and no two rows share one (R92, R93, R103). -/
theorem eq_encode_of_decode {e : Encoding} {i : Instr} (h : decode e = .ok i) : e = encode i := by
  obtain ⟨format, n⟩ := e
  cases format with
  | cmd =>
    obtain ⟨hn, hc⟩ := decode_cmd_ok h
    rw [encode_of_decodeCmd hc, BitVec.toNat_ofNat, Nat.mod_eq_of_lt hn]
  | uop =>
    obtain ⟨hn, rfl⟩ := decode_uop_ok h
    rw [encode_decodeUop, BitVec.toNat_ofNat, Nat.mod_eq_of_lt hn]

-- the encoded lengths

/-- Byte `i` of a value is its digit of weight `256 ^ i` (R8). -/
theorem toNat_byteAt {n : Nat} (v : BitVec n) (i : Nat) :
    (byteAt v i).toNat = v.toNat / 2 ^ (8 * i) % 256 := by
  rw [byteAt, BitVec.extractLsb'_toNat, Nat.shiftRight_eq_div_pow]

/-- The bytes of a value above its magnitude are zero (R8). -/
theorem byteAt_eq_zero_of_lt {n : Nat} {v : BitVec n} {i : Nat} (h : v.toNat < 2 ^ (8 * i)) :
    byteAt v i = 0 := by
  refine BitVec.eq_of_toNat_eq ?_
  rw [toNat_byteAt, Nat.div_eq_of_lt h]
  rfl

/-- An encoded length is the bit count itself: it has at most 67 bits and never wraps (R99). -/
theorem toNat_lengthWord (l : Len) : (lengthWord l).toNat = 8 * l.toNat := by
  have hfits : 8 * l.toNat < 2 ^ 128 := by have := l.isLt; omega
  rw [lengthWord, le128, BitVec.toNat_ofNat, Nat.mod_eq_of_lt hfits]

/-- The product of R99 is below `2 ^ 67`. -/
theorem lengthWord_lt (l : Len) : (lengthWord l).toNat < 2 ^ 67 := by
  rw [toNat_lengthWord]
  have := l.isLt
  omega

-- the statements

/-- Settles O1: both directions, by the tables' round trip and by the two decoders' inversions. -/
theorem decodeExactlyInvertsEncode : Obligations.DecodeExactlyInvertsEncode := fun _ i =>
  ⟨eq_encode_of_decode, fun h => h ▸ decode_encode i⟩

/-- Settles O33: the exact value by `toNat_lengthWord`; the bytes from its bound of 67 bits, bytes 9 and up
having weight at least `2 ^ 72` and byte 8 the weight `2 ^ 64`. -/
theorem lengthWordIsExact : Obligations.LengthWordIsExact := by
  refine fun l => ⟨toNat_lengthWord l, fun i h9 _ => ?high, ?byte8⟩
  case high =>
    refine byteAt_eq_zero_of_lt ((lengthWord_lt l).trans_le ?_)
    exact Nat.pow_le_pow_right (by decide) (by omega)
  case byte8 =>
    have hlt := lengthWord_lt l
    rw [toNat_byteAt]
    omega

/-- Settles O2: the three commands by evaluation; every other word by what the command decoder accepts. -/
theorem commandDecoderIsTotal : Obligations.CommandDecoderIsTotal := by
  refine fun c => ⟨?nop, ?enc, ?dec, fun h3 i hi => ?refused⟩
  case nop | enc | dec => rintro rfl; rfl
  case refused => obtain ⟨rfl, -⟩ | ⟨rfl, -⟩ | ⟨rfl, -⟩ := decodeCmd_ok hi <;> exact absurd h3 (by decide)

/-- Settles O3: the decoder evaluated at each value of `PHASE`. -/
theorem phaseDecoderTable : Obligations.PhaseDecoderTable :=
  ⟨rfl, rfl, rfl, rfl, rfl, rfl, rfl, rfl, rfl, rfl, rfl, rfl, rfl, rfl, rfl, rfl⟩

end Sys2Proof

/-! PROOFS of the statement about the state update `Round` (40_aes_round_and_round.md R118). -/

namespace Sys2Proof.Machine

/-- Settles O43: each word of `round` is a field of a record built from the old state alone (R118), so each
equation is that field's own definition. -/
theorem roundFromTheOldState : Obligations.RoundFromTheOldState := fun _ _ _ =>
  ⟨rfl, rfl, rfl, rfl, rfl, rfl, rfl⟩

end Sys2Proof.Machine

/-! PROOFS of the statements about the initialization (41_initialization.md): INIT_LOAD, INIT_ROUND and
INIT_WHITEN (R131 to R133). First the load and the whitening in terms of the key halves, and the rule for each of
the three micro-operations, then the statements. -/

namespace Sys2Proof.Machine

-- the load and whitening patterns over the key's low and high half

/-- The load pattern: the high key half goes to word 0, the low one to word 3 (R131). -/
theorem loadState_eq (key : W256) (nonce : W128) :
    loadState key nonce =
      { s0 := hi key, s1 := nonce, s2 := Config.z0, s3 := lo key, s4 := Config.z1,
        s5 := nonce ^^^ hi key, s6 := 0 } := rfl

/-- The whitening pattern, which is not the load pattern (R133). -/
theorem whiten_eq (S : CipherState) (key : W256) :
    whiten S key =
      { s0 := S.s0 ^^^ lo key, s1 := S.s1 ^^^ lo key, s2 := S.s2 ^^^ hi key, s3 := S.s3 ^^^ lo key,
        s4 := S.s4 ^^^ lo key, s5 := S.s5 ^^^ hi key, s6 := S.s6 ^^^ hi key } := rfl

-- the three micro-operations

/-- INIT_LOAD never stops: it loads the state and clears both positions, the counter and `FAIL` (R131). -/
theorem exec_initLoad (s : State) :
    exec .initLoad s = .next { s with
      S := loadState s.key s.nonce, rnd := 0, adpos := 0, mpos := 0, fail := false,
      phase := Phase.initRound } := rfl

/-- INIT_ROUND is the counted round loop with the constants `Z0`, `Z1` that leads to INIT_WHITEN (R132). -/
theorem exec_initRound (s : State) :
    exec .initRound s = roundLoop Config.z0 Config.z1 Phase.initRound Phase.initWhiten s := rfl

/-- INIT_WHITEN never stops: it whitens the state and enters the AD phase by the dispatch (R133). -/
theorem exec_initWhiten (s : State) :
    exec .initWhiten s = .next { s with
      S := whiten s.S s.key, phase := adDispatch s.dir s.adlen s.adpos s.mlen s.mpos } := rfl

-- the statements

/-- Settles O20: INIT_LOAD's rule, with the load pattern written out. -/
theorem initLoadFromKeyAndNonce : Obligations.InitLoadFromKeyAndNonce := fun s => by
  rw [exec_initLoad, loadState_eq]

/-- Settles O21: the two branches of the round loop below its overflow, the last round and a round that stays. -/
theorem initRoundCountsToWhiten : Obligations.InitRoundCountsToWhiten := by
  refine fun s => ⟨fun hlast => ?exit, fun hcount => ?stay⟩
  case exit => exact (exec_initRound s).trans (roundLoop_exit hlast)
  case stay => exact (exec_initRound s).trans (roundLoop_stay hcount)

/-- Settles O22: INIT_WHITEN's rule, with the whitening pattern written out. -/
theorem initWhitenThenDispatch : Obligations.InitWhitenThenDispatch := fun s => by
  rw [exec_initWhiten, whiten_eq]

end Sys2Proof.Machine

/-! PROOFS of the statements about the associated data (42_ad_absorption.md): AD_FULL (R142) and AD_PART
(R144). First the two halves of a block read from a space and the rule for each of the two micro-operations under
its precondition, then the statements. -/

namespace Sys2Proof.Machine

-- the two halves of a whole block read from a space

/-- The first half of a whole block is the 16 bytes at its address (R98, R64). -/
theorem byteAt_lo_block_read (m : Memory) (a : Nat) {i : Nat} (h16 : i < 16) :
    byteAt (lo (block (m.read a 32))) i = m.get (a + i) := by
  rw [byteAt_lo _ _ h16, byteAt_block_read _ _ _ _ (by omega), if_pos (by omega)]

/-- The second half of a whole block is the 16 bytes after those (R98, R64). -/
theorem byteAt_hi_block_read (m : Memory) (a : Nat) {i : Nat} (h16 : i < 16) :
    byteAt (hi (block (m.read a 32))) i = m.get (a + 16 + i) := by
  rw [byteAt_hi _ _ h16, byteAt_block_read _ _ _ _ (by omega), if_pos (by omega), Nat.add_assoc]

/-- The block of the bytes from `pos` up to `len` holds those bytes and is zero past them (R98, R144). -/
theorem byteAt_block_read_remainder (m : Memory) {len pos i : Nat} (hi : i < 32) :
    byteAt (block (m.read pos (len - pos))) i = if pos + i < len then m.get (pos + i) else 0 := by
  have hinside : i < len - pos ↔ pos + i < len := by omega
  simp only [byteAt_block_read _ _ _ _ hi, hinside]
  rfl

-- the two micro-operations

/-- AD_FULL with a whole block left: the new position is at most `ADLEN`, so it fits its register (R142). -/
theorem exec_adFull_of_block_left {s : State} (h : s.adpos.toNat + 32 ≤ s.adlen.toNat) :
    exec .adFull s = .next { s with
      S := absorbBlock s.S (block (s.ad.read s.adpos.toNat 32)), adpos := s.adpos + 32,
      phase := adDispatch s.dir s.adlen (s.adpos + 32) s.mlen s.mpos } :=
  execAdFull_eq (h.trans_lt s.adlen.isLt)

/-- AD_PART with at most a block left: it absorbs the bytes from `ADPOS` up to `ADLEN` (R144). -/
theorem exec_adPart_of_remainder {s : State} (hpos : s.adpos.toNat ≤ s.adlen.toNat)
    (hlen : s.adlen.toNat ≤ s.adpos.toNat + 32) :
    exec .adPart s = .next { s with
      S := absorbBlock s.S (block (s.ad.read s.adpos.toNat (s.adlen.toNat - s.adpos.toNat))),
      W := block (s.ad.read s.adpos.toNat (s.adlen.toNat - s.adpos.toNat)),
      adpos := s.adlen, phase := msgDispatch s.dir s.mlen s.mpos } :=
  execAdPart_eq (Nat.add_sub_cancel' hpos) (by omega)

-- the statements

/-- Settles O24: the halves are those of the block at `ADPOS`, absorbed by AD_FULL's rule. -/
theorem adFullAbsorbsBlock : Obligations.AdFullAbsorbsBlock := fun s hblock =>
  ⟨lo (block (s.ad.read s.adpos.toNat 32)), hi (block (s.ad.read s.adpos.toNat 32)),
    fun _ hi => byteAt_lo_block_read _ _ hi, fun _ hi => byteAt_hi_block_read _ _ hi,
    exec_adFull_of_block_left hblock⟩

/-- Settles O25: `W` is the zero-padded block of the bytes left, absorbed by AD_PART's rule. -/
theorem adPartAbsorbsPaddedRemainder : Obligations.AdPartAbsorbsPaddedRemainder := fun s hpos hlen =>
  ⟨block (s.ad.read s.adpos.toNat (s.adlen.toNat - s.adpos.toNat)),
    fun _ hi => byteAt_block_read_remainder _ hi, exec_adPart_of_remainder hpos.le hlen.le⟩

end Sys2Proof.Machine

/-! PROOFS of the statements about the whole-block encryption and decryption (43_block_encrypt_decrypt.md): ENC_FULL
(R152) and DEC_FULL (R154). First the bytes of `OUT` after a block made of two halves was written, and the rule for
each of the two micro-operations under its precondition, then the statements. -/

namespace Sys2Proof.Machine

-- the bytes of a space after a whole block was written, half by half

/-- The bytes at the address of a written block are those of its first half (R65, R9). -/
theorem get_write_cat_low {m out : Memory} (hm : m.wf) {a : Nat} {x y : W128}
    (hout : out = m.write a (toBytes (cat x y) 32)) {i : Nat} (h16 : i < 16) :
    out.get (a + i) = byteAt x i := by
  have hlen : i < (toBytes (cat x y) 32).length := by rw [length_toBytes]; omega
  rw [hout, Memory.get_write_inside hm a _ hlen, getElem_toBytes, byteAt_cat_low _ _ _ h16]

/-- The 16 bytes after those are the bytes of its second half (R65, R9). -/
theorem get_write_cat_high {m out : Memory} (hm : m.wf) {a : Nat} {x y : W128}
    (hout : out = m.write a (toBytes (cat x y) 32)) {i : Nat} (h16 : i < 16) :
    out.get (a + 16 + i) = byteAt y i := by
  have hlen : 16 + i < (toBytes (cat x y) 32).length := by rw [length_toBytes]; omega
  rw [hout, Nat.add_assoc, Memory.get_write_inside hm a _ hlen, getElem_toBytes, byteAt_cat_high _ _ _ h16]

/-- Writing the first `n` bytes of a value changes no byte outside those `n` (R65). -/
theorem get_write_toBytes_outside {m out : Memory} (hm : m.wf) {a n k : Nat} {w : BitVec k}
    (hout : out = m.write a (toBytes w n)) {b : Nat} (hb : b < a ∨ a + n ≤ b) :
    out.get b = m.get b := by
  rw [hout, Memory.get_write_outside hm a _ (by rwa [length_toBytes])]

-- the two micro-operations

/-- Absorbing a block XORed with the keystream feeds `Round` its two halves, each XORed with its own half of the
keystream (R154). -/
theorem absorbBlock_cipherBlock (S : CipherState) (b : W256) :
    absorbBlock S (cipherBlock S b) = round S (ks0 S ^^^ lo b) (ks1 S ^^^ hi b) := by
  rw [absorbBlock, cipherBlock, lo_cat, hi_cat]

/-- ENC_FULL with a whole block left: the new position is at most `MLEN`, so it fits its register; `Round` is fed
the block read from `IN` (R152). -/
theorem exec_encFull_of_block_left {s : State} {out : Memory} (h : s.mpos.toNat + 32 ≤ s.mlen.toNat)
    (hout : out = s.out.write s.mpos.toNat
      (toBytes (cipherBlock s.S (block (s.inp.read s.mpos.toNat 32))) 32)) :
    exec .encFull s = .next { s with
      S := absorbBlock s.S (block (s.inp.read s.mpos.toNat 32)), mpos := s.mpos + 32, out := out,
      phase := msgDispatch s.dir s.mlen (s.mpos + 32) } :=
  execEncFull_eq (h.trans_lt s.mlen.isLt) hout

/-- DEC_FULL with a whole block left: as ENC_FULL, but `Round` is fed the halves of the block that it writes
(R154). -/
theorem exec_decFull_of_block_left {s : State} {out : Memory} (h : s.mpos.toNat + 32 ≤ s.mlen.toNat)
    (hout : out = s.out.write s.mpos.toNat
      (toBytes (cipherBlock s.S (block (s.inp.read s.mpos.toNat 32))) 32)) :
    exec .decFull s = .next { s with
      S := round s.S (ks0 s.S ^^^ lo (block (s.inp.read s.mpos.toNat 32)))
        (ks1 s.S ^^^ hi (block (s.inp.read s.mpos.toNat 32))),
      mpos := s.mpos + 32, out := out, phase := msgDispatch s.dir s.mlen (s.mpos + 32) } := by
  rw [← absorbBlock_cipherBlock]
  exact execDecFull_eq (h.trans_lt s.mlen.isLt) hout

-- the statements

/-- Settles O26: the halves are those of the block at `MPOS`, encrypted by ENC_FULL's rule; `OUT` is the space with
the two encrypted halves written. -/
theorem encFullEncryptsBlock : Obligations.EncFullEncryptsBlock := by
  intro s hwf _ hblock
  obtain ⟨out, hout⟩ : ∃ out, out = s.out.write s.mpos.toNat
    (toBytes (cipherBlock s.S (block (s.inp.read s.mpos.toNat 32))) 32) := ⟨_, rfl⟩
  exact ⟨lo (block (s.inp.read s.mpos.toNat 32)), hi (block (s.inp.read s.mpos.toNat 32)), out,
    fun _ h16 => byteAt_lo_block_read _ _ h16, fun _ h16 => byteAt_hi_block_read _ _ h16,
    exec_encFull_of_block_left hblock hout,
    fun _ h16 => get_write_cat_low hwf hout h16, fun _ h16 => get_write_cat_high hwf hout h16,
    fun _ ha => get_write_toBytes_outside hwf hout ha⟩

/-- Settles O27: the ciphertext halves are those of the block at `MPOS`; the plaintext halves, their XOR with the
keystream, are what DEC_FULL's rule feeds to `Round` and what is written. -/
theorem decFullDecryptsBlock : Obligations.DecFullDecryptsBlock := by
  intro s hwf _ hblock
  obtain ⟨out, hout⟩ : ∃ out, out = s.out.write s.mpos.toNat
    (toBytes (cipherBlock s.S (block (s.inp.read s.mpos.toNat 32))) 32) := ⟨_, rfl⟩
  exact ⟨lo (block (s.inp.read s.mpos.toNat 32)), hi (block (s.inp.read s.mpos.toNat 32)), _, _, out,
    fun _ h16 => byteAt_lo_block_read _ _ h16, fun _ h16 => byteAt_hi_block_read _ _ h16, rfl, rfl,
    exec_decFull_of_block_left hblock hout,
    fun _ h16 => get_write_cat_low hwf hout h16, fun _ h16 => get_write_cat_high hwf hout h16,
    fun _ ha => get_write_toBytes_outside hwf hout ha⟩

end Sys2Proof.Machine

/-! PROOFS of the statements about the partial block (44_partial_block.md): ENC_PART (R162) and DEC_PART (R164).
First the recovered or encrypted bytes of a remainder, what writing a remainder does to a space, and the rule for
each of the two micro-operations under its precondition, then the statements. -/

namespace Sys2Proof.Machine

-- the remainder: the bytes from `pos` up to `len`

/-- The real bytes of a remainder XORed with the keystream: the zero padding plays no part in them (R162, R164). -/
theorem byteAt_cipherBlock_read_remainder (S : CipherState) (m : Memory) {len pos i : Nat} (h32 : i < 32)
    (hi : pos + i < len) :
    byteAt (cipherBlock S (block (m.read pos (len - pos)))) i = byteAt (ks S) i ^^^ m.get (pos + i) := by
  rw [byteAt_cipherBlock _ _ _ h32, byteAt_block_read_remainder _ h32, if_pos hi]

/-- DEC_PART's `Wn`: the recovered bytes of the remainder, then zeros in place of the keystream bytes that the zero
padding left there (R164). -/
theorem byteAt_keepBytes_cipherBlock_remainder (S : CipherState) (m : Memory) {len pos i : Nat} (h32 : i < 32) :
    byteAt (keepBytes (cipherBlock S (block (m.read pos (len - pos)))) (len - pos)) i =
      if pos + i < len then byteAt (ks S) i ^^^ m.get (pos + i) else 0 := by
  rw [byteAt_keepBytes _ _ _ h32]
  by_cases hi : pos + i < len
  · rw [if_pos (by omega), if_pos hi, byteAt_cipherBlock_read_remainder S m h32 hi]
  · rw [if_neg (by omega), if_neg hi]
    rfl

/-- Writing the bytes of a value from `pos` up to `len` puts them there (R65). -/
theorem get_write_remainder_inside {m out : Memory} (hm : m.wf) {len pos : Nat} {w : W256}
    (hout : out = m.write pos (toBytes w (len - pos))) {i : Nat} (hi : pos + i < len) :
    out.get (pos + i) = byteAt w i := by
  rw [hout, Memory.get_write_toBytes hm pos w (by omega)]

/-- Writing the bytes of a value from `pos` up to `len` changes no byte below `pos` or from `len` on (R65). -/
theorem get_write_remainder_outside {m out : Memory} (hm : m.wf) {len pos : Nat} {w : W256} (hpos : pos ≤ len)
    (hout : out = m.write pos (toBytes w (len - pos))) {a : Nat} (ha : a < pos ∨ len ≤ a) :
    out.get a = m.get a :=
  get_write_toBytes_outside hm hout (by omega)

-- the two micro-operations

/-- ENC_PART with at most a block left: `w`, the zero-padded plaintext, goes to `W` and whole into the `Round`; of
its encryption only the bytes up to `MLEN` are written (R162). -/
theorem exec_encPart_of_remainder {s : State} {w : W256} {out : Memory} (hpos : s.mpos.toNat ≤ s.mlen.toNat)
    (hlen : s.mlen.toNat ≤ s.mpos.toNat + 32)
    (hw : w = block (s.inp.read s.mpos.toNat (s.mlen.toNat - s.mpos.toNat)))
    (hout : out = s.out.write s.mpos.toNat (toBytes (cipherBlock s.S w) (s.mlen.toNat - s.mpos.toNat))) :
    exec .encPart s = .next { s with
      S := absorbBlock s.S w, W := w, mpos := s.mlen, out := out, phase := Phase.finRound } := by
  subst hw
  exact execEncPart_eq (Nat.add_sub_cancel' hpos) (by omega) hout

/-- DEC_PART with at most a block left: `w`, the recovered plaintext with its bytes past `MLEN` zeroed, goes to `W`
and into the `Round`, and its bytes up to `MLEN` are written (R164). -/
theorem exec_decPart_of_remainder {s : State} {w : W256} {out : Memory} (hpos : s.mpos.toNat ≤ s.mlen.toNat)
    (hlen : s.mlen.toNat ≤ s.mpos.toNat + 32)
    (hw : w = keepBytes (cipherBlock s.S (block (s.inp.read s.mpos.toNat (s.mlen.toNat - s.mpos.toNat))))
      (s.mlen.toNat - s.mpos.toNat))
    (hout : out = s.out.write s.mpos.toNat (toBytes w (s.mlen.toNat - s.mpos.toNat))) :
    exec .decPart s = .next { s with
      S := absorbBlock s.S w, W := w, mpos := s.mlen, out := out, phase := Phase.finRound } := by
  subst hw
  exact execDecPart_eq (Nat.add_sub_cancel' hpos) (by omega) hout

-- the statements

/-- Settles O29: `W` is the zero-padded block of the bytes left, and `OUT` is the space with the real bytes of its
encryption written. -/
theorem encPartEncryptsRemainder : Obligations.EncPartEncryptsRemainder := by
  intro s hwf _ hpos hlen
  obtain ⟨w, hw⟩ : ∃ w, w = block (s.inp.read s.mpos.toNat (s.mlen.toNat - s.mpos.toNat)) := ⟨_, rfl⟩
  obtain ⟨out, hout⟩ : ∃ out, out = s.out.write s.mpos.toNat
    (toBytes (cipherBlock s.S w) (s.mlen.toNat - s.mpos.toNat)) := ⟨_, rfl⟩
  refine ⟨w, out, fun i h32 => ?bytes, exec_encPart_of_remainder hpos.le hlen.le hw hout, fun i hi => ?written,
    fun a ha => get_write_remainder_outside hwf hpos.le hout ha⟩
  case bytes => rw [hw, byteAt_block_read_remainder _ h32]
  case written =>
    rw [get_write_remainder_inside hwf hout hi, hw, byteAt_cipherBlock_read_remainder _ _ (by omega) hi]

/-- Settles O30: `W` is the recovered plaintext with the bytes past the remainder zeroed, and `OUT` is the space with
its real bytes written. -/
theorem decPartDecryptsRemainder : Obligations.DecPartDecryptsRemainder := by
  intro s hwf _ hpos hlen
  obtain ⟨w, hw⟩ : ∃ w, w = keepBytes (cipherBlock s.S (block (s.inp.read s.mpos.toNat
    (s.mlen.toNat - s.mpos.toNat)))) (s.mlen.toNat - s.mpos.toNat) := ⟨_, rfl⟩
  obtain ⟨out, hout⟩ : ∃ out, out = s.out.write s.mpos.toNat (toBytes w (s.mlen.toNat - s.mpos.toNat)) :=
    ⟨_, rfl⟩
  refine ⟨w, out, fun i h32 => ?bytes, exec_decPart_of_remainder hpos.le hlen.le hw hout,
    fun i hi => get_write_remainder_inside hwf hout hi,
    fun a ha => get_write_remainder_outside hwf hpos.le hout ha⟩
  case bytes => rw [hw, byteAt_keepBytes_cipherBlock_remainder _ _ h32]

end Sys2Proof.Machine

/-! PROOFS of the statements about the finalization (45_finalization.md): FIN_ROUND, TAG_DERIVE and TAG_WRITE (R172,
R174, R176). First the encoded length as a bit count, the rule for each of the three micro-operations and the two
halves of the tag, then the statements. -/

namespace Sys2Proof.Machine

-- the encoded lengths

/-- The operand of FIN_ROUND is the bit count of the length as a 128-bit value (R99, R172). -/
theorem lengthWord_eq (l : Len) : lengthWord l = BitVec.ofNat 128 (8 * l.toNat) := rfl

-- the three micro-operations

/-- FIN_ROUND is the counted round loop with the encoded lengths, that of the associated data first, and it leads to
TAG_DERIVE (R172). -/
theorem exec_finRound (s : State) :
    exec .finRound s =
      roundLoop (lengthWord s.adlen) (lengthWord s.mlen) Phase.finRound Phase.tagDerive s := rfl

/-- TAG_DERIVE never stops: it folds the state into `T`, and `DIR` chooses what is done with the tag (R174). -/
theorem exec_tagDerive (s : State) :
    exec .tagDerive s = .next { s with
      T := foldTag s.S, phase := if s.dir then Phase.tagVerify else Phase.tagWrite } := rfl

/-- TAG_WRITE never stops: it writes the bytes of `T` after the ciphertext and goes on to ZEROIZE (R176). -/
theorem exec_tagWrite {s : State} {out : Memory} (hout : out = s.out.write s.mlen.toNat (toBytes s.T 32)) :
    exec .tagWrite s = .next { s with out := out, phase := Phase.zeroize } :=
  execTagWrite_eq hout

-- the two halves of the tag

/-- The first half of the tag folds four words of the state (R174). -/
theorem lo_foldTag (S : CipherState) : lo (foldTag S) = S.s0 ^^^ S.s1 ^^^ S.s2 ^^^ S.s3 :=
  lo_cat _ _

/-- The second half of the tag folds the other three (R174). -/
theorem hi_foldTag (S : CipherState) : hi (foldTag S) = S.s4 ^^^ S.s5 ^^^ S.s6 :=
  hi_cat _ _

-- the statements

/-- Settles O35: `OUT` is the space with the 32 bytes of `T` written at `MLEN` by TAG_WRITE's rule; the bytes inside
and outside are those of a written byte string. -/
theorem tagWriteAppendsTheTag : Obligations.TagWriteAppendsTheTag := by
  intro s hwf _
  obtain ⟨out, hout⟩ : ∃ out, out = s.out.write s.mlen.toNat (toBytes s.T 32) := ⟨_, rfl⟩
  refine ⟨out, exec_tagWrite hout, fun i h32 => ?written, fun a ha => get_write_toBytes_outside hwf hout ha⟩
  case written => rw [hout, Memory.get_write_toBytes hwf _ _ h32]

/-- Settles O32: the two branches of the round loop below its overflow, the last round and a round that stays, at
the encoded lengths. -/
theorem finRoundCountsToTagDerive : Obligations.FinRoundCountsToTagDerive := by
  intro s
  rw [← lengthWord_eq, ← lengthWord_eq]
  refine ⟨fun hlast => ?exit, fun hcount => ?stay⟩
  case exit => exact (exec_finRound s).trans (roundLoop_exit hlast)
  case stay => exact (exec_finRound s).trans (roundLoop_stay hcount)

/-- Settles O34: `T` is the folded state, whose halves are the two folds. -/
theorem tagDeriveFoldsTheState : Obligations.TagDeriveFoldsTheState := fun s =>
  ⟨foldTag s.S, exec_tagDerive s, lo_foldTag s.S, hi_foldTag s.S⟩

end Sys2Proof.Machine

/-! PROOFS of the statements about the tag verification (46_tag_verification.md): TAG_VERIFY (R182) and OUT_WIPE
(R184). First the verdict in terms of the bytes it compares and the rule for each of the two micro-operations, then
the statements. -/

namespace Sys2Proof.Machine

-- the verdict

/-- The OR-accumulated comparison looks at all 32 byte pairs: none of them may differ (R181). -/
theorem equal32_iff_bytes (a b : W256) :
    equal32 a b = true ↔ ∀ i, i < 32 → byteAt a i = byteAt b i := by
  rw [equal32, beq_iff_eq, tagDiff, foldl_diff_eq_zero]
  simp only [true_and, List.mem_range, BitVec.xor_eq_zero_iff, Config.tagBytes]

/-- The supplied tag is the 32 bytes of `IN` after the ciphertext (R182). -/
theorem byteAt_suppliedTag (s : State) {i : Nat} (h32 : i < 32) :
    byteAt s.suppliedTag i = s.inp.get (s.mlen.toNat + i) :=
  (byteAt_block_read _ _ _ _ h32).trans (if_pos h32)

/-- The verdict is positive only where every byte of `T` is that of the supplied tag (R182). -/
theorem verdict_iff_bytes (s : State) :
    s.verdict = true ↔ ∀ i, i < 32 → byteAt s.T i = s.inp.get (s.mlen.toNat + i) := by
  rw [State.verdict, equal32_iff_bytes]
  exact forall₂_congr fun i h32 => by rw [byteAt_suppliedTag s h32]

-- the two micro-operations

/-- TAG_VERIFY never stops: the verdict decides `FAIL` and whether the plaintext is erased next (R182). -/
theorem exec_tagVerify (s : State) :
    exec .tagVerify s = .next { s with
      fail := !s.verdict, phase := if s.verdict then Phase.zeroize else Phase.outWipe } :=
  execTagVerify_eq s

/-- OUT_WIPE never stops: it erases `OUT` below `MLEN` and goes on to ZEROIZE (R184). -/
theorem exec_outWipe {s : State} {out : Memory} (hout : out = s.out.wipe s.mlen.toNat) :
    exec .outWipe s = .next { s with out := out, phase := Phase.zeroize } :=
  execOutWipe_eq hout

-- the statements

/-- Settles O37: TAG_VERIFY's rule at a positive verdict, where all bytes agree, and at a negative one, where some
byte differs. -/
theorem tagVerifyVerdict : Obligations.TagVerifyVerdict := by
  refine fun s _ => ⟨fun hsame => ?matching, fun ⟨i, h32, hdiff⟩ => ?mismatch⟩
  case matching =>
    have hverdict : s.verdict = true := (verdict_iff_bytes s).2 hsame
    simp [exec_tagVerify, hverdict]
  case mismatch =>
    have hverdict : s.verdict = false :=
      Bool.eq_false_iff.2 fun hmatch => hdiff ((verdict_iff_bytes s).1 hmatch i h32)
    simp [exec_tagVerify, hverdict]

/-- Settles O38: `OUT` is the erased space of OUT_WIPE's rule, whose bytes are those of the erasure. -/
theorem outWipeErasesPlaintext : Obligations.OutWipeErasesPlaintext := by
  intro s hwf _
  obtain ⟨out, hout⟩ : ∃ out, out = s.out.wipe s.mlen.toNat := ⟨_, rfl⟩
  exact ⟨out, exec_outWipe hout, fun a => hout ▸ Memory.get_wipe hwf _ a⟩

end Sys2Proof.Machine

/-! PROOFS of the statements about the commands and the sequencer (47_commands_and_sequencer.md): the two dispatch
functions (R196, R197), NOP, ENC and DEC (R191 to R193, R195), and ZEROIZE (R205). First the answer of each dispatch
function in each range of bytes that remain, and the rule for each of the commands and for ZEROIZE, then the
statements. -/

namespace Sys2Proof.Machine

-- the dispatch functions, by the bytes that remain; the equations run from the range to the answer, where
-- `msgDispatch_cases` and `adDispatch_cases` list the ranges

/-- `ad_dispatch()` with a whole block of associated data left (R196). -/
theorem adDispatch_of_block_left (d : Bool) {adlen adpos : Len} (mlen mpos : Len)
    (hblock : adpos.toNat + 32 ≤ adlen.toNat) : adDispatch d adlen adpos mlen mpos = Phase.adFull := by
  unfold adDispatch Config.blockBytes
  rw [if_pos (by omega)]

/-- `ad_dispatch()` with some associated data left, but no whole block (R196). -/
theorem adDispatch_of_remainder (d : Bool) {adlen adpos : Len} (mlen mpos : Len)
    (hleft : adpos.toNat < adlen.toNat) (hpart : adlen.toNat < adpos.toNat + 32) :
    adDispatch d adlen adpos mlen mpos = Phase.adPart := by
  unfold adDispatch Config.blockBytes
  rw [if_neg (by omega), if_pos (by omega)]

/-- `ad_dispatch()` with no associated data left is `msg_dispatch()` (R196). -/
theorem adDispatch_of_none_left (d : Bool) {adlen adpos : Len} (mlen mpos : Len)
    (hend : adlen.toNat ≤ adpos.toNat) : adDispatch d adlen adpos mlen mpos = msgDispatch d mlen mpos := by
  unfold adDispatch Config.blockBytes
  rw [if_neg (by omega), if_neg (by omega)]

/-- `msg_dispatch()` with a whole block of the message left (R197). -/
theorem msgDispatch_of_block_left (d : Bool) {mlen mpos : Len} (hblock : mpos.toNat + 32 ≤ mlen.toNat) :
    msgDispatch d mlen mpos = if d then Phase.decFull else Phase.encFull := by
  unfold msgDispatch Config.blockBytes
  rw [if_pos (by omega)]

/-- `msg_dispatch()` with some of the message left, but no whole block (R197). -/
theorem msgDispatch_of_remainder (d : Bool) {mlen mpos : Len} (hleft : mpos.toNat < mlen.toNat)
    (hpart : mlen.toNat < mpos.toNat + 32) :
    msgDispatch d mlen mpos = if d then Phase.decPart else Phase.encPart := by
  unfold msgDispatch Config.blockBytes
  rw [if_neg (by omega), if_pos (by omega)]

/-- `msg_dispatch()` with none of the message left (R197). -/
theorem msgDispatch_of_none_left (d : Bool) {mlen mpos : Len} (hend : mlen.toNat ≤ mpos.toNat) :
    msgDispatch d mlen mpos = Phase.finRound := by
  unfold msgDispatch Config.blockBytes
  rw [if_neg (by omega), if_neg (by omega)]

-- the three commands and ZEROIZE

/-- NOP never stops and hands its state on (R191). -/
theorem exec_nop (s : State) : exec .nop s = .next s := rfl

/-- ENC never stops: it is the acceptance step with direction 0 (R192). -/
theorem exec_enc (s : State) : exec .enc s = .next (acceptCommand false s) := rfl

/-- DEC never stops: it is the acceptance step with direction 1 (R193). -/
theorem exec_dec (s : State) : exec .dec s = .next (acceptCommand true s) := rfl

/-- The code an operation ends with is 1 after a failed verification and 0 otherwise (R205). -/
theorem outcomeCode_eq (failed : Bool) : outcomeCode failed = if failed then 1#2 else 0#2 := by
  cases failed <;> rfl

/-- The erased state is seven zero words (R205). -/
theorem CipherState.zero_eq : CipherState.zero = ⟨0, 0, 0, 0, 0, 0, 0⟩ := rfl

/-- ZEROIZE never stops: it erases what the operation worked on, reports, and returns to IDLE (R205). -/
theorem exec_zeroize (s : State) :
    exec .zeroize s = .next { s with
      S := CipherState.zero, W := 0, T := 0, rnd := 0, adpos := 0, mpos := 0, done := true,
      err := outcomeCode s.fail, fail := false, phase := Phase.idle } := rfl

-- the statements

/-- Settles O23: each clause is the equation of its dispatch function for that range of bytes that remain. None of
them needs the two bounds on the positions. -/
theorem dispatchFunctions : Obligations.DispatchFunctions := fun dir _ _ mlen mpos _ _ =>
  ⟨adDispatch_of_block_left dir mlen mpos,
    adDispatch_of_remainder dir mlen mpos,
    fun hend => adDispatch_of_none_left dir mlen mpos hend.ge,
    msgDispatch_of_block_left dir,
    msgDispatch_of_remainder dir,
    fun hend => msgDispatch_of_none_left dir hend.ge⟩

/-- Settles O15: NOP's rule, which asks nothing of the phase. -/
theorem nopChangesNothing : Obligations.NopChangesNothing := exec_nop

/-- Settles O16: ENC's rule, with what the acceptance step is while idle and while busy. -/
theorem encAcceptance : Obligations.EncAcceptance := by
  refine fun s => ⟨fun hidle => ?accepted, fun hbusy => ?ignored⟩
  case accepted => rw [exec_enc, acceptCommand_idle hidle]
  case ignored => rw [exec_enc, acceptCommand_busy hbusy]

/-- Settles O17: DEC's rule, with what the acceptance step is while idle and while busy. -/
theorem decAcceptance : Obligations.DecAcceptance := by
  refine fun s => ⟨fun hidle => ?accepted, fun hbusy => ?ignored⟩
  case accepted => rw [exec_dec, acceptCommand_idle hidle]
  case ignored => rw [exec_dec, acceptCommand_busy hbusy]

/-- Settles O19: ZEROIZE's rule, with the erased state words and the outcome code written out. -/
theorem zeroizeErasesAndReports : Obligations.ZeroizeErasesAndReports := fun s => by
  rw [exec_zeroize, outcomeCode_eq, CipherState.zero_eq]

end Sys2Proof.Machine

/-! PROOF of the statement about the conditions (60_exceptions.md): an illegal command word (R194, R222, R232).
First the words the command decoder refuses, what raising `ILLEGAL_CMD` changes, and a step at a refused command
word, then the statement. -/

namespace Sys2Proof.Machine

/-- The command decoder answers a word of no command with an error (R94, R95). -/
theorem decodeCmd_error_of_ge_three {c : BitVec 8} (h3 : 3 ≤ c.toNat) : ∃ e, decodeCmd c = .error e := by
  cases hdec : decodeCmd c with
  | error e => exact ⟨e, rfl⟩
  | ok i =>
    obtain ⟨-, -, -, hrefused⟩ := commandDecoderIsTotal c
    exact absurd hdec (hrefused h3 i)

/-- Raising `ILLEGAL_CMD` writes the two fields `ERR` and `DONE` and no other (R222, R232). -/
theorem raise_illegalCmd_eq (s : State) : raise .illegalCmd s = { s with done := false, err := 2#2 } := rfl

/-- While `BUSY` = 0 a write of a word that the command decoder refuses raises `ILLEGAL_CMD` (R194). -/
theorem step_cmd_of_decode_error {s : State} {c : BitVec 8} {e : DecodeError} {rest : List HostLine}
    (hp : s.phase = Phase.idle) (hs : s.script = .wr (.cmd c) :: rest) (hdec : decodeCmd c = .error e) :
    step s = .next (raise .illegalCmd { s with script := rest }) := by
  have hb : busy { s with script := rest } = false := busy_eq_false.2 hp
  simp [step, fetch, hs, fetchWrite, hb, hdec]

/-- Settles O6: the decoder refuses the word, so the step raises `ILLEGAL_CMD`, which writes `ERR` and `DONE`. -/
theorem illegalCommandOnlySetsErr : Obligations.IllegalCommandOnlySetsErr := by
  intro s c rest hp hs h3
  obtain ⟨e, hdec⟩ := decodeCmd_error_of_ge_three h3
  rw [step_cmd_of_decode_error hp hs hdec, raise_illegalCmd_eq]

end Sys2Proof.Machine

/-! PROOFS of the statements about the phases of an operation: initialization (41_initialization.md R134),
absorption of the associated data (42_ad_absorption.md R145), and finalization (45_finalization.md R175). Each is
the induction over its rounds or its blocks, put together with the single steps around it. -/

namespace Sys2Proof.Machine

-- one more step at the end of a run, and a number of blocks

/-- A run and one step more. -/
theorem run_snoc {k : Nat} {s t u : State} (h : run k s = .next t) (hstep : step t = .next u) :
    run (k + 1) s = .next u :=
  (run_add h).trans (run_one hstep)

/-- Every block of a string starts inside it (R97). -/
theorem block_start_lt {l i : Nat} (hi : i < blockCount l) : 32 * i < l := by
  unfold blockCount at hi; omega

/-- The blocks of a string together are the whole of it (R97). -/
theorem min_block_end (l : Nat) : min (32 * blockCount l) l = l := by
  unfold blockCount; omega

-- the single steps

/-- INIT_LOAD, the machine's step (R131). -/
theorem step_initLoad {s : State} (hs : s.script = []) (hp : s.phase = Phase.initLoad) :
    step s = .next { s with
      S := loadState s.key s.nonce, rnd := 0, adpos := 0, mpos := 0, fail := false,
      phase := Phase.initRound } := by
  rw [step_core hs, hp]; exact exec_initLoad s

/-- INIT_WHITEN, the machine's step (R133). -/
theorem step_initWhiten {s : State} (hs : s.script = []) (hp : s.phase = Phase.initWhiten) :
    step s = .next { s with
      S := whiten s.S s.key, phase := adDispatch s.dir s.adlen s.adpos s.mlen s.mpos } := by
  rw [step_core hs, hp]; exact exec_initWhiten s

/-- TAG_DERIVE, the machine's step (R174). -/
theorem step_tagDerive {s : State} (hs : s.script = []) (hp : s.phase = Phase.tagDerive) :
    step s = .next { s with
      T := foldTag s.S, phase := if s.dir then Phase.tagVerify else Phase.tagWrite } := by
  rw [step_core hs, hp]; exact exec_tagDerive s

-- the absorption of the associated data

/-- The AD phase after `j` blocks: they are absorbed, and `ADPOS` is the end of the last of them (R145). -/
theorem run_ad {s : State} (hs : s.script = []) (hpos : s.adpos = 0)
    (hp : s.phase = adDispatch s.dir s.adlen 0 s.mlen s.mpos) (j : Nat) (hj : j ≤ blockCount s.adlen.toNat) :
    ∃ (w : W256) (p : Len), p.toNat = min (32 * j) s.adlen.toNat ∧
      run j s = .next { s with
        S := absorbAt s.S s.adBytes j, W := w, adpos := p
        phase := adDispatch s.dir s.adlen p s.mlen s.mpos } := by
  induction j with
  | zero =>
    refine ⟨s.W, 0, by simp, ?_⟩
    rw [run_zero, ← hp, ← hpos]
    rfl
  | succ j ih =>
    obtain ⟨w, p, hend, hrun⟩ := ih (by omega)
    have hlt : 32 * j < s.adlen.toNat := block_start_lt hj
    obtain ⟨w', p', hend', hstep⟩ := @step_ad { s with
      S := absorbAt s.S s.adBytes j, W := w, adpos := p
      phase := adDispatch s.dir s.adlen p s.mlen s.mpos } j hs hlt (hend.trans (by omega)) rfl
    exact ⟨w', p', hend', run_snoc hrun hstep⟩

-- the statements

/-- Settles O44: the load, the sixteen rounds of the loop, and the whitening. -/
theorem initializationIsInit : Obligations.InitializationIsInit := by
  intro s hs hp
  have hload := run_one (step_initLoad hs hp)
  have hrounds := @run_roundLoop (fun _ _ => Config.z0) (fun _ _ => Config.z1) _ _
    (fun _ => step_initRound) 15 { s with
      S := loadState s.key s.nonce, rnd := 0, adpos := 0, mpos := 0, fail := false,
      phase := Phase.initRound } hs rfl rfl
  exact run_snoc ((run_add hload).trans hrounds) (step_initWhiten hs rfl)

/-- Settles O45: the induction over the blocks at the last of them, where the AD dispatch is the message's. -/
theorem adPhaseIsAbsorb : Obligations.AdPhaseIsAbsorb := by
  intro s hs hpos hp
  obtain ⟨w, p, hend, hrun⟩ := run_ad hs hpos hp _ le_rfl
  rw [min_block_end] at hend
  obtain rfl : p = s.adlen := BitVec.eq_of_toNat_eq hend
  rw [adDispatch_of_none_left _ _ _ le_rfl] at hrun
  refine ⟨w, hrun.trans ?_⟩
  rw [absorb, State.adBytes, Memory.length_read]

/-- Settles O46: the sixteen rounds of the loop, and the fold. -/
theorem finalizationIsFinalize : Obligations.FinalizationIsFinalize := by
  intro s hs hp hr
  have hrounds := @run_roundLoop (fun adlen _ => lengthWord adlen) (fun _ mlen => lengthWord mlen) _ _
    (fun _ => step_finRound) 15 s hs hp (by rw [hr]; rfl)
  refine (run_snoc hrounds (step_tagDerive hs rfl)).trans ?_
  rw [finalizeTag, hr]
  rfl

end Sys2Proof.Machine

/-! PROOFS of the statements that decryption undoes encryption, one block at a time (43_block_encrypt_decrypt.md
R155, 44_partial_block.md R165). First the one fact both rest on, `plainBlock_encrypted`: a block and its ciphertext
differ by a keystream that does not depend on either; then the statements. -/

namespace Sys2Proof.Machine

-- a block and its encryption

/-- Decrypting the real bytes of an encrypted block recovers the zero-padded plaintext, all 32 bytes of it (R155,
R165, R207). -/
theorem plainBlock_encrypted (S : CipherState) (b : List Byte) :
    plainBlock S (toBytes (cipherBlock S (block b)) b.length) = block b := by
  refine eq_of_bytes (show 256 = 8 * 32 from rfl) fun i h32 => ?_
  rw [plainBlock, byteAt_keepBytes _ _ _ h32, length_toBytes]
  by_cases hi : i < b.length
  · have hreal : byteAt (block (toBytes (cipherBlock S (block b)) b.length)) i =
        byteAt (cipherBlock S (block b)) i := by
      rw [byteAt_block _ _ h32, List.getD_eq_getElem _ _ (by rwa [length_toBytes]), getElem_toBytes]
    rw [if_pos hi, byteAt_cipherBlock _ _ _ h32, hreal, byteAt_cipherBlock _ _ _ h32, ← BitVec.xor_assoc,
      BitVec.xor_self, BitVec.zero_xor]
  · rw [if_neg hi, byteAt_block _ _ h32, List.getD_eq_default _ _ (Nat.le_of_not_lt hi)]

/-- A space that holds a written string reads as that string (R64, R65). -/
theorem Memory.read_eq_of_write {m m' out : Memory} (hm : m.wf) {a a' n : Nat} {v : W256}
    (hout : out = m.write a (toBytes v n)) (h : ∀ i, i < n → m'.get (a' + i) = out.get (a + i)) :
    m'.read a' n = toBytes v n := by
  rw [Memory.read_congr h, hout]
  simpa using Memory.read_write hm a (toBytes v n)

/-- A byte of a zero-padded block written to a space is the byte it was read from (R64, R65). -/
theorem get_write_block_read {m m' out : Memory} (hm : m.wf) {a a' n i : Nat}
    (hout : out = m.write a (toBytes (block (m'.read a' n)) n)) (hi : i < n) (h32 : i < 32) :
    out.get (a + i) = m'.get (a' + i) := by
  rw [hout, Memory.get_write_toBytes hm _ _ hi, byteAt_block_read _ _ _ _ h32, if_pos hi]

-- the statements

/-- Settles O28: DEC_FULL reads what ENC_FULL wrote, and XORing with the same keystream twice gives the block back.
-/
theorem decFullInvertsEncFull : Obligations.DecFullInvertsEncFull := by
  intro s t u v hswf huwf henc hdec hS hin
  obtain ⟨-, sout, hsout, rfl⟩ := execEncFull_next henc
  obtain ⟨-, uout, huout, rfl⟩ := execDecFull_next hdec
  have hplain : cipherBlock u.S (block (u.inp.read u.mpos.toNat 32)) = block (s.inp.read s.mpos.toNat 32) := by
    rw [Memory.read_eq_of_write hswf hsout hin, block_toBytes, hS, cipherBlock_cipherBlock]
  rw [hplain] at huout
  refine ⟨?state, fun i h32 => get_write_block_read huwf huout h32 h32⟩
  case state => exact congrArg₂ absorbBlock hS hplain

/-- Settles O31: DEC_PART reads the real bytes that ENC_PART wrote, from which its block is the zero-padded plaintext.
-/
theorem decPartInvertsEncPart : Obligations.DecPartInvertsEncPart := by
  intro s t u v hswf huwf henc hdec hS _ hpart hlen hin
  obtain ⟨n, sout, hsn, hn, hsout, rfl⟩ := execEncPart_next henc
  obtain ⟨n', uout, hun, -, huout, rfl⟩ := execDecPart_next hdec
  obtain rfl : n' = n := by omega
  have hread : u.inp.read u.mpos.toNat n' = _ :=
    Memory.read_eq_of_write hswf hsout fun i hi => hin i (by omega)
  have hplain : keepBytes (cipherBlock u.S (block (u.inp.read u.mpos.toNat n'))) n' =
      block (s.inp.read s.mpos.toNat n') := by
    have h := plainBlock_encrypted s.S (s.inp.read s.mpos.toNat n')
    rw [plainBlock, length_toBytes, Memory.length_read] at h
    rw [hread, hS, h]
  rw [hplain] at huout
  refine ⟨?state, ?buffer, fun i hi => get_write_block_read huwf huout (by omega) (by omega)⟩
  case state => exact congrArg₂ absorbBlock hS hplain
  case buffer => exact hplain

end Sys2Proof.Machine

/-! PROOF of the statement about the comparison of two tags (46_tag_verification.md R181). -/

namespace Sys2Proof.Machine

/-- Settles O36: the accumulated comparison looks at every byte pair, and the bytes determine the value. -/
theorem tagComparisonIsEquality : Obligations.TagComparisonIsEquality := fun a b =>
  (equal32_iff_bytes a b).trans ⟨eq_of_bytes rfl, fun h _ _ => h ▸ rfl⟩

/-- The verdict of TAG_VERIFY is positive exactly where `T` is the supplied tag (R182). -/
theorem verdict_iff (s : State) : s.verdict = true ↔ s.T = s.suppliedTag :=
  tagComparisonIsEquality _ _

end Sys2Proof.Machine

/-! PROOFS of the statements about whole operations (47_commands_and_sequencer.md R200, R201, R206, R207): the net
effect of an ENC and of a DEC. Both are initialization, absorption, message pass and finalization, run one after the
other up to the tag (`run_to_tag`); they differ in what one block of the message pass does, which `MessagePass`
names, and in what follows the tag. That an operation is busy until its last step needs no look at its steps: once
idle it would have stayed idle. -/

namespace Sys2Proof.Machine

-- the bytes of a message pass

@[simp] theorem length_inBytes (s : State) : s.inBytes.length = s.mlen.toNat := by
  rw [State.inBytes, Memory.length_read]

theorem length_chunk (bs : List Byte) (j : Nat) : (chunk bs j).length = min 32 (bs.length - 32 * j) := by
  rw [chunk, List.length_take, List.length_drop]

theorem length_encChunk (S : CipherState) (m : List Byte) (j : Nat) :
    (encChunk S m j).length = (chunk m j).length := by
  rw [encChunk, length_toBytes]

theorem length_decChunk (S : CipherState) (ct : List Byte) (j : Nat) :
    (decChunk S ct j).length = (chunk ct j).length := by
  rw [decChunk, length_toBytes]

/-- The first `j` blocks of a ciphertext are as long as those of its plaintext (R206). -/
theorem length_encAt (S : CipherState) (m : List Byte) (j : Nat) :
    (encAt S m j).length = min (32 * j) m.length := by
  induction j with
  | zero => simp [encAt]
  | succ j ih => rw [encAt, List.length_append, ih, length_encChunk, length_chunk]; omega

/-- The first `j` blocks of a recovered plaintext are as long as those of the ciphertext (R207). -/
theorem length_decAt (S : CipherState) (ct : List Byte) (j : Nat) :
    (decAt S ct j).length = min (32 * j) ct.length := by
  induction j with
  | zero => simp [decAt]
  | succ j ih => rw [decAt, List.length_append, ih, length_decChunk, length_chunk]; omega

-- the message pass

/-- An operation of `s` in its message pass: the state words, `W`, `MPOS` and `OUT` it has come to. -/
def State.inMessage (s : State) (S : CipherState) (w : W256) (p : Len) (out : Memory) : State :=
  { s with
    S := S, W := w, rnd := 0, adpos := s.adlen, mpos := p, fail := false, out := out
    phase := msgDispatch s.dir s.mlen p }

/-- What a message pass computes: `σ j` is the cipher state and `written j` the bytes in `OUT` after `j` blocks, and
each block is one step that takes the one and appends to the other (R206, R207). -/
structure MessagePass (s : State) (σ : Nat → CipherState) (written : Nat → List Byte) : Prop where
  start : σ 0 = s.startState
  nothing : written 0 = []
  length : ∀ j, (written j).length = min (32 * j) s.mlen.toNat
  step : ∀ (j : Nat) (w : W256) (p : Len) (out : Memory), 32 * j < s.mlen.toNat → p.toNat = 32 * j →
    ∃ (w' : W256) (p' : Len) (bs : List Byte), p'.toNat = min (32 * (j + 1)) s.mlen.toNat ∧
      written (j + 1) = written j ++ bs ∧
      step (s.inMessage (σ j) w p out) = .next (s.inMessage (σ (j + 1)) w' p' (out.write (32 * j) bs))

/-- The message pass of an ENC absorbs the plaintext and writes the ciphertext (R206). -/
theorem messagePass_enc {s : State} (hs : s.script = []) (hd : s.dir = false) :
    MessagePass s (absorbAt s.startState s.inBytes) (encAt s.startState s.inBytes) where
  start := rfl
  nothing := rfl
  length j := by rw [length_encAt, length_inBytes]
  step j w p out hj hpos := by
    obtain ⟨w', p', hend, hstep⟩ :=
      @step_enc (s.inMessage (absorbAt s.startState s.inBytes j) w p out) j hs hd hj hpos rfl
    exact ⟨w', p', encChunk s.startState s.inBytes j, hend, rfl, hstep⟩

/-- The message pass of a DEC absorbs the recovered plaintext and writes it (R207). -/
theorem messagePass_dec {s : State} (hs : s.script = []) (hd : s.dir = true) :
    MessagePass s (decStateAt s.startState s.inBytes) (decAt s.startState s.inBytes) where
  start := rfl
  nothing := rfl
  length j := by rw [length_decAt, length_inBytes]
  step j w p out hj hpos := by
    obtain ⟨w', p', hend, hstep⟩ :=
      @step_dec (s.inMessage (decStateAt s.startState s.inBytes j) w p out) j hs hd hj hpos rfl
    exact ⟨w', p', decChunk s.startState s.inBytes j, hend, rfl, hstep⟩

section
variable {s : State} {σ : Nat → CipherState} {written : Nat → List Byte}

/-- The message pass after `j` blocks (R206, R207). -/
theorem MessagePass.run (hpass : MessagePass s σ written) (w : W256) (j : Nat)
    (hj : j ≤ blockCount s.mlen.toNat) :
    ∃ (w' : W256) (p : Len), p.toNat = min (32 * j) s.mlen.toNat ∧
      Machine.run j (s.inMessage s.startState w 0 s.out) =
        .next (s.inMessage (σ j) w' p (s.out.write 0 (written j))) := by
  induction j with
  | zero => exact ⟨w, 0, by simp, by rw [run_zero, hpass.start, hpass.nothing]; rfl⟩
  | succ j ih =>
    obtain ⟨w₁, p₁, hend, hrun⟩ := ih (by omega)
    have hlt : 32 * j < s.mlen.toNat := block_start_lt hj
    obtain ⟨w₂, p₂, bs, hend₂, hwritten, hstep⟩ :=
      hpass.step j w₁ p₁ (s.out.write 0 (written j)) hlt (hend.trans (by omega))
    refine ⟨w₂, p₂, hend₂, (run_snoc hrun hstep).trans ?_⟩
    rw [hwritten, Memory.write_append, hpass.length, Nat.zero_add, Nat.min_eq_left hlt.le]

-- from the accepted command to the tag

/-- Initialization and absorption lead to the start of the message pass (R134, R145). -/
theorem run_to_message (hs : s.script = []) (hp : s.phase = Phase.initLoad) :
    ∃ w, run (18 + blockCount s.adlen.toNat) s = .next (s.inMessage s.startState w 0 s.out) := by
  obtain ⟨w, had⟩ := adPhaseIsAbsorb { s with
    S := initState s.key s.nonce, rnd := 0, adpos := 0, mpos := 0, fail := false
    phase := adDispatch s.dir s.adlen 0 s.mlen 0 } hs rfl rfl
  exact ⟨w, (run_add (initializationIsInit s hs hp)).trans had⟩

/-- An operation up to its tag: `T` holds the tag of the last cipher state and `OUT` the bytes of the message pass
(R206, R207). -/
theorem run_to_tag (hs : s.script = []) (hp : s.phase = Phase.initLoad) (hpass : MessagePass s σ written) :
    ∃ (S : CipherState) (w : W256) (out : Memory),
      out = s.out.write 0 (written (blockCount s.mlen.toNat)) ∧
      run (35 + blockCount s.adlen.toNat + blockCount s.mlen.toNat) s = .next { s with
        S := S, W := w, T := finalizeTag (σ (blockCount s.mlen.toNat)) s.adlen s.mlen, rnd := 0
        adpos := s.adlen, mpos := s.mlen, fail := false, out := out
        phase := if s.dir then Phase.tagVerify else Phase.tagWrite } := by
  obtain ⟨w, hstart⟩ := run_to_message hs hp
  obtain ⟨w', p, hend, hmessage⟩ := hpass.run w _ le_rfl
  rw [min_block_end] at hend
  obtain rfl : p = s.mlen := BitVec.eq_of_toNat_eq hend
  have htag := finalizationIsFinalize (s.inMessage (σ (blockCount s.mlen.toNat)) w' s.mlen
    (s.out.write 0 (written (blockCount s.mlen.toNat)))) hs (msgDispatch_end _ _) rfl
  refine ⟨roundIter (lengthWord s.adlen) (lengthWord s.mlen) 16 (σ (blockCount s.mlen.toNat)), w', _, rfl, ?_⟩
  rw [show 35 + blockCount s.adlen.toNat + blockCount s.mlen.toNat =
    18 + blockCount s.adlen.toNat + blockCount s.mlen.toNat + 17 by omega]
  exact (run_add ((run_add hstart).trans hmessage)).trans htag

end

-- the end of an operation

/-- No step of a run without host lines adds one. -/
theorem run_script {k : Nat} {s t : State} (hs : s.script = []) (h : run k s = .next t) : t.script = [] := by
  induction k generalizing s with
  | zero => exact Host.Outcome.next.inj h ▸ hs
  | succ k ih =>
    rw [run] at h
    split at h
    · rename_i u hstep
      rw [step_core hs] at hstep
      obtain ⟨-, -, -, -, -, -, hscript, -⟩ := exec_operands hstep
      exact ih (hscript.trans hs) h
    · cases h
    · cases h

/-- A core that is busy after `n` steps was busy at every step before: an idle core stays idle (R198). -/
theorem busy_of_busy_later {s t : State} {n : Nat} (hs : s.script = []) (h : run n s = .next t)
    (ht : t.phase ≠ Phase.idle) {k : Nat} {u : State} (hk : k ≤ n) (hu : run k s = .next u) :
    u.phase ≠ Phase.idle := by
  intro hidle
  have hstays : run n s = .next u := by
    rw [← Nat.add_sub_cancel' hk, run_add hu, run_idle (run_script hs hu) hidle]
  rw [h] at hstays
  injection hstays with htu
  exact ht (htu ▸ hidle)

/-- ZEROIZE, the machine's step (R205). -/
theorem step_zeroize {s : State} (hs : s.script = []) (hp : s.phase = Phase.zeroize) :
    step s = .next { s with
      S := CipherState.zero, W := 0, T := 0, rnd := 0, adpos := 0, mpos := 0, done := true,
      err := outcomeCode s.fail, fail := false, phase := Phase.idle } := by
  rw [step_core hs, hp]; exact exec_zeroize s

/-- An operation that has come to ZEROIZE after `n` steps ends with the next, and is busy until then (R201, R205). -/
theorem run_zeroize {s t : State} {n : Nat} (hs : s.script = []) (h : run n s = .next t)
    (hp : t.phase = Phase.zeroize) :
    (∀ k u, k < n + 1 → run k s = .next u → u.phase ≠ Phase.idle) ∧
    run (n + 1) s = .next { t with
      S := CipherState.zero, W := 0, T := 0, rnd := 0, adpos := 0, mpos := 0, done := true,
      err := outcomeCode t.fail, fail := false, phase := Phase.idle } :=
  ⟨fun _ _ hk => busy_of_busy_later hs h (by rw [hp]; decide) (Nat.le_of_lt_succ hk),
    run_snoc h (step_zeroize (run_script hs h) hp)⟩

/-- `STATUS` of the idle core after an operation (R35). -/
theorem status_of_done {s : State} {d : Bool} {v : BitVec 8} (e : BitVec 2) (hp : s.phase = Phase.idle)
    (hdone : s.done = true) (hdir : s.dir = d) (herr : s.err = e) (hv : 0#3 ++ bit d ++ e ++ 1#1 ++ 0#1 = v) :
    status s = v := by
  rw [status, busy_eq_false.2 hp, hdone, hdir, herr, ← hv]; rfl

-- what follows the tag

/-- TAG_WRITE, the machine's step (R176). -/
theorem step_tagWrite {s : State} {out : Memory} (hs : s.script = []) (hp : s.phase = Phase.tagWrite)
    (hout : out = s.out.write s.mlen.toNat (toBytes s.T 32)) :
    step s = .next { s with out := out, phase := Phase.zeroize } := by
  rw [step_core hs, hp]; exact exec_tagWrite hout

/-- TAG_VERIFY where `T` is the supplied tag, the machine's step (R182). -/
theorem step_tagVerify_of_match {s : State} (hs : s.script = []) (hp : s.phase = Phase.tagVerify)
    (hmatch : s.T = s.suppliedTag) : step s = .next { s with fail := false, phase := Phase.zeroize } := by
  have hverdict : s.verdict = true := (verdict_iff s).2 hmatch
  rw [step_core hs, hp]
  exact (exec_tagVerify s).trans (by simp [hverdict])

/-- TAG_VERIFY where `T` is not the supplied tag, the machine's step (R182). -/
theorem step_tagVerify_of_mismatch {s : State} (hs : s.script = []) (hp : s.phase = Phase.tagVerify)
    (hmismatch : s.T ≠ s.suppliedTag) : step s = .next { s with fail := true, phase := Phase.outWipe } := by
  have hverdict : s.verdict = false := Bool.eq_false_iff.2 fun h => hmismatch ((verdict_iff s).1 h)
  rw [step_core hs, hp]
  exact (exec_tagVerify s).trans (by simp [hverdict])

/-- OUT_WIPE, the machine's step (R184). -/
theorem step_outWipe {s : State} {out : Memory} (hs : s.script = []) (hp : s.phase = Phase.outWipe)
    (hout : out = s.out.wipe s.mlen.toNat) : step s = .next { s with out := out, phase := Phase.zeroize } := by
  rw [step_core hs, hp]; exact exec_outWipe hout

-- the composites, by the number of blocks of `MLEN`

theorem encTag_eq (s : State) :
    s.encTag = finalizeTag (absorbAt s.startState s.inBytes (blockCount s.mlen.toNat)) s.adlen s.mlen := by
  rw [State.encTag, absorb, length_inBytes]

theorem decTag_eq (s : State) :
    s.decTag = finalizeTag (decStateAt s.startState s.inBytes (blockCount s.mlen.toNat)) s.adlen s.mlen := by
  rw [State.decTag, decState, length_inBytes]

theorem encBytes_inBytes (s : State) :
    encBytes s.startState s.inBytes = encAt s.startState s.inBytes (blockCount s.mlen.toNat) := by
  rw [encBytes, length_inBytes]

theorem decBytes_inBytes (s : State) :
    decBytes s.startState s.inBytes = decAt s.startState s.inBytes (blockCount s.mlen.toNat) := by
  rw [decBytes, length_inBytes]

theorem length_encBytes_inBytes (s : State) : (encBytes s.startState s.inBytes).length = s.mlen.toNat := by
  rw [encBytes_inBytes, length_encAt, length_inBytes, min_block_end]

theorem length_decBytes_inBytes (s : State) : (decBytes s.startState s.inBytes).length = s.mlen.toNat := by
  rw [decBytes_inBytes, length_decAt, length_inBytes, min_block_end]

-- from the command to ZEROIZE

/-- An ENC from its command to ZEROIZE: the ciphertext in `OUT`, the tag written after it (R206). -/
theorem run_enc {s : State} (hs : s.script = []) (hp : s.phase = Phase.initLoad) (hd : s.dir = false) :
    ∃ (S : CipherState) (w : W256) (ct out : Memory),
      ct = s.out.write 0 (encBytes s.startState s.inBytes) ∧
      out = ct.write s.mlen.toNat (toBytes s.encTag 32) ∧
      run (36 + blockCount s.adlen.toNat + blockCount s.mlen.toNat) s = .next { s with
        S := S, W := w, T := s.encTag, rnd := 0, adpos := s.adlen, mpos := s.mlen, fail := false, out := out
        phase := Phase.zeroize } := by
  obtain ⟨S, w, ct, hct, hrun⟩ := run_to_tag hs hp (messagePass_enc hs hd)
  rw [← encTag_eq, if_neg (by simp [hd])] at hrun
  rw [← encBytes_inBytes] at hct
  obtain ⟨out, hout⟩ : ∃ out, out = ct.write s.mlen.toNat (toBytes s.encTag 32) := ⟨_, rfl⟩
  refine ⟨S, w, ct, out, hct, hout, ?_⟩
  rw [show 36 + blockCount s.adlen.toNat + blockCount s.mlen.toNat =
    35 + blockCount s.adlen.toNat + blockCount s.mlen.toNat + 1 by omega]
  exact run_snoc hrun (step_tagWrite hs rfl hout)

/-- A DEC up to TAG_VERIFY: the recovered plaintext in `OUT`, the computed tag in `T` (R207). -/
theorem run_dec_to_verify {s : State} (hs : s.script = []) (hp : s.phase = Phase.initLoad) (hd : s.dir = true) :
    ∃ (S : CipherState) (w : W256) (out : Memory),
      out = s.out.write 0 (decBytes s.startState s.inBytes) ∧
      run (35 + blockCount s.adlen.toNat + blockCount s.mlen.toNat) s = .next { s with
        S := S, W := w, T := s.decTag, rnd := 0, adpos := s.adlen, mpos := s.mlen, fail := false, out := out
        phase := Phase.tagVerify } := by
  obtain ⟨S, w, out, hout, hrun⟩ := run_to_tag hs hp (messagePass_dec hs hd)
  rw [← decTag_eq, if_pos hd] at hrun
  rw [← decBytes_inBytes] at hout
  exact ⟨S, w, out, hout, hrun⟩

/-- A DEC on a match, from its command to ZEROIZE: the plaintext stays in `OUT` (R207). -/
theorem run_dec_of_match {s : State} (hs : s.script = []) (hp : s.phase = Phase.initLoad) (hd : s.dir = true)
    (hmatch : s.decTag = s.suppliedTag) :
    ∃ (S : CipherState) (w : W256) (out : Memory),
      out = s.out.write 0 (decBytes s.startState s.inBytes) ∧
      run (36 + blockCount s.adlen.toNat + blockCount s.mlen.toNat) s = .next { s with
        S := S, W := w, T := s.decTag, rnd := 0, adpos := s.adlen, mpos := s.mlen, fail := false, out := out
        phase := Phase.zeroize } := by
  obtain ⟨S, w, out, hout, hrun⟩ := run_dec_to_verify hs hp hd
  refine ⟨S, w, out, hout, ?_⟩
  rw [show 36 + blockCount s.adlen.toNat + blockCount s.mlen.toNat =
    35 + blockCount s.adlen.toNat + blockCount s.mlen.toNat + 1 by omega]
  exact run_snoc hrun (step_tagVerify_of_match hs rfl hmatch)

/-- A DEC on a mismatch, from its command to ZEROIZE: one step more, which erases the plaintext (R207, R221). -/
theorem run_dec_of_mismatch {s : State} (hs : s.script = []) (hp : s.phase = Phase.initLoad) (hd : s.dir = true)
    (hmismatch : s.decTag ≠ s.suppliedTag) :
    ∃ (S : CipherState) (w : W256) (pt out : Memory),
      pt = s.out.write 0 (decBytes s.startState s.inBytes) ∧ out = pt.wipe s.mlen.toNat ∧
      run (36 + blockCount s.adlen.toNat + blockCount s.mlen.toNat + 1) s = .next { s with
        S := S, W := w, T := s.decTag, rnd := 0, adpos := s.adlen, mpos := s.mlen, fail := true, out := out
        phase := Phase.zeroize } := by
  obtain ⟨S, w, pt, hpt, hrun⟩ := run_dec_to_verify hs hp hd
  obtain ⟨out, hout⟩ : ∃ out, out = pt.wipe s.mlen.toNat := ⟨_, rfl⟩
  refine ⟨S, w, pt, out, hpt, hout, ?_⟩
  rw [show 36 + blockCount s.adlen.toNat + blockCount s.mlen.toNat =
    35 + blockCount s.adlen.toNat + blockCount s.mlen.toNat + 1 by omega]
  exact run_snoc (run_snoc hrun (step_tagVerify_of_mismatch hs rfl hmismatch)) (step_outWipe hs rfl hout)

-- what `OUT` then holds

/-- A space after a string of `n` bytes was written at its start (R65). -/
theorem read_write_start {m out : Memory} (hm : m.wf) {bs : List Byte} {n : Nat} (hn : bs.length = n)
    (hout : out = m.write 0 bs) : out.read 0 n = bs ∧ ∀ a, n ≤ a → out.get a = m.get a := by
  subst hn hout
  exact ⟨Memory.read_write hm 0 bs, fun a ha => Memory.get_write_outside hm 0 bs (.inr (by omega))⟩

/-- Writing from `n` on leaves what stands below `n` (R65). -/
theorem read_write_above {m out : Memory} (hm : m.wf) {bs : List Byte} {n : Nat} (hout : out = m.write n bs) :
    out.read 0 n = m.read 0 n :=
  Memory.read_congr fun i hi => hout ▸ Memory.get_write_outside hm n bs (.inl (by omega))

theorem opSteps_eq (s : State) :
    s.opSteps = 36 + blockCount s.adlen.toNat + blockCount s.mlen.toNat + 1 := by
  rw [State.opSteps]; omega

-- the statements

/-- Settles O47: the run to ZEROIZE and that step; the tag written after the ciphertext leaves it as it is. -/
theorem netEffectOfEnc : Obligations.NetEffectOfEnc := by
  intro s hs hp hd hwf
  obtain ⟨S, w, ct, out, hct, hout, hrun⟩ := run_enc hs hp hd
  obtain ⟨hbusy, hend⟩ := run_zeroize hs hrun rfl
  have hctwf : ct.wf := hct ▸ Memory.wf_write hwf _ _
  obtain ⟨hread, habove⟩ := read_write_start hwf (length_encBytes_inBytes s) hct
  rw [opSteps_eq]
  refine ⟨hbusy, _, out, hend, rfl, ?status, ?ciphertext, ?tag, fun a ha => ?above⟩
  case status => exact status_of_done 0#2 rfl rfl hd rfl (by decide)
  case ciphertext => rw [read_write_above hctwf hout, hread]
  case tag => simpa [hout] using Memory.read_write hctwf s.mlen.toNat (toBytes s.encTag 32)
  case above => rw [get_write_toBytes_outside hctwf hout (.inr ha), habove a (by omega)]

/-- Settles O48: the run to ZEROIZE and that step, on a match and on a mismatch. -/
theorem netEffectOfDec : Obligations.NetEffectOfDec := by
  intro s hs hp hd hwf
  rw [opSteps_eq]
  by_cases htag : s.decTag = s.suppliedTag
  case pos =>
    obtain ⟨S, w, out, hout, hrun⟩ := run_dec_of_match hs hp hd htag
    obtain ⟨hbusy, hend⟩ := run_zeroize hs hrun rfl
    obtain ⟨hread, habove⟩ := read_write_start hwf (length_decBytes_inBytes s) hout
    simp only [if_pos htag]
    refine ⟨hbusy, _, out, hend, rfl, ?status, fun _ => hread, fun hne => absurd htag hne, habove⟩
    case status => exact status_of_done 0#2 rfl rfl hd rfl (by decide)
  case neg =>
    obtain ⟨S, w, pt, out, hpt, hout, hrun⟩ := run_dec_of_mismatch hs hp hd htag
    obtain ⟨hbusy, hend⟩ := run_zeroize hs hrun rfl
    obtain ⟨-, habove⟩ := read_write_start hwf (length_decBytes_inBytes s) hpt
    have hptwf : pt.wf := hpt ▸ Memory.wf_write hwf _ _
    simp only [if_neg htag]
    refine ⟨hbusy, _, out, hend, rfl, ?status, fun he => absurd he htag, fun _ a ha => ?erased, fun a ha => ?above⟩
    case status => exact status_of_done 1#2 rfl rfl hd rfl (by decide)
    case erased => rw [hout, Memory.get_wipe hptwf, if_pos ha]; rfl
    case above => rw [hout, Memory.get_wipe hptwf, if_neg (by omega), habove a ha]

end Sys2Proof.Machine

/-! PROOF of the statement that the DEC of the output of an ENC gives the plaintext back
(47_commands_and_sequencer.md R208). The blocks of the ciphertext are the encrypted blocks; so each block of the DEC
recovers the plaintext block (`plainBlock_encrypted`) from the very state the ENC encrypted it in. With the net
effects of both operations, the two tags agree. -/

namespace Sys2Proof.Machine

-- the blocks of two strings in a row

/-- A block that lies wholly in the first of two strings (R97). -/
theorem chunk_append_left {a b : List Byte} {j : Nat} (h : 32 * (j + 1) ≤ a.length) :
    chunk (a ++ b) j = chunk a j := by
  rw [chunk, chunk, List.drop_append_of_le_length (by omega), List.take_append_of_le_length]
  rw [List.length_drop]; omega

/-- A string of at most a block that starts at a block boundary is that block (R97). -/
theorem chunk_append_right {a b : List Byte} {j : Nat} (ha : a.length = 32 * j) (hb : b.length ≤ 32) :
    chunk (a ++ b) j = b := by
  rw [chunk, List.drop_left' ha, List.take_of_length_le hb]

/-- A string up to the end of block `j` (R97). -/
theorem take_succ_block (m : List Byte) (j : Nat) : m.take (32 * (j + 1)) = m.take (32 * j) ++ chunk m j := by
  rw [Nat.mul_succ, List.take_add, chunk]

-- the blocks of a ciphertext

/-- Block `j` of a ciphertext is the encryption of block `j` of its plaintext (R206). -/
theorem chunk_encAt (S : CipherState) (m : List Byte) {j k : Nat} (hj : j < k) (hk : k ≤ blockCount m.length) :
    chunk (encAt S m k) j = encChunk S m j := by
  induction k with
  | zero => omega
  | succ k ih =>
    have hfull : (encAt S m k).length = 32 * k := by
      have := block_start_lt hk
      rw [length_encAt]; omega
    rw [encAt]
    obtain hlt | rfl : j < k ∨ j = k := by omega
    · rw [chunk_append_left (by omega), ih hlt (by omega)]
    · exact chunk_append_right hfull (by rw [length_encChunk, length_chunk]; omega)

theorem chunk_encBytes (S : CipherState) (m : List Byte) {j : Nat} (hj : j < blockCount m.length) :
    chunk (encBytes S m) j = encChunk S m j :=
  chunk_encAt S m hj le_rfl

@[simp] theorem length_encBytes (S : CipherState) (m : List Byte) : (encBytes S m).length = m.length := by
  rw [encBytes, length_encAt, min_block_end]

-- the decryption of a ciphertext

/-- The DEC of a ciphertext goes through the states of its ENC (R208). -/
theorem decStateAt_encBytes (S : CipherState) (m : List Byte) (j : Nat) (hj : j ≤ blockCount m.length) :
    decStateAt S (encBytes S m) j = absorbAt S m j := by
  induction j with
  | zero => rfl
  | succ j ih =>
    rw [decStateAt, ih (by omega), chunk_encBytes S m hj, encChunk, plainBlock_encrypted, absorbAt]

/-- Block `j` of the recovered plaintext is block `j` of the plaintext (R208). -/
theorem decChunk_encBytes (S : CipherState) (m : List Byte) {j : Nat} (hj : j < blockCount m.length) :
    decChunk S (encBytes S m) j = chunk m j := by
  rw [decChunk, decStateAt_encBytes S m j hj.le, chunk_encBytes S m hj, length_encChunk, encChunk,
    plainBlock_encrypted, toBytes_block (by rw [length_chunk]; omega)]

/-- The recovered plaintext up to the end of a block (R208). -/
theorem decAt_encBytes (S : CipherState) (m : List Byte) (j : Nat) (hj : j ≤ blockCount m.length) :
    decAt S (encBytes S m) j = m.take (32 * j) := by
  induction j with
  | zero => simp [decAt]
  | succ j ih => rw [decAt, ih (by omega), decChunk_encBytes S m hj, take_succ_block]

/-- Decrypting a ciphertext recovers the plaintext (R208). -/
theorem decBytes_encBytes (S : CipherState) (m : List Byte) : decBytes S (encBytes S m) = m := by
  rw [decBytes, length_encBytes, decAt_encBytes S m _ le_rfl, List.take_of_length_le]
  unfold blockCount; omega

/-- Decrypting a ciphertext ends in the state that encrypting ended in (R208). -/
theorem decState_encBytes (S : CipherState) (m : List Byte) : decState S (encBytes S m) = absorb S m := by
  rw [decState, length_encBytes, decStateAt_encBytes S m _ le_rfl, absorb]

-- the statement

/-- Settles O49: the net effect of the ENC gives what the DEC reads, and by `decBytes_encBytes` and
`decState_encBytes` the net effect of the DEC is that on a match. -/
theorem decryptOfEncryptIsPlaintext : Obligations.DecryptOfEncryptIsPlaintext := by
  intro s t u hs hsp hsd hswf hrun hu hup hud huwf hkey hnonce hadlen hmlen had hin
  obtain ⟨-, t', out, hrun', ht', -, hct, htag, -⟩ := netEffectOfEnc s hs hsp hsd hswf
  have htout : t.out = out := by
    rw [hrun] at hrun'
    injection hrun' with h
    rw [h, ht']
  rw [htout, Memory.read_append, Memory.read_append, Nat.zero_add, Nat.zero_add, hct, htag] at hin
  obtain ⟨hinBytes, hsupplied⟩ := List.append_inj hin (by simp [hmlen])
  have hstart : u.startState = s.startState := by
    rw [State.startState, State.startState, hkey, hnonce, had]
  have hmatch : u.decTag = u.suppliedTag := calc
    u.decTag = finalizeTag (decState s.startState (encBytes s.startState s.inBytes)) s.adlen s.mlen := by
      rw [State.decTag, hstart, hadlen, hmlen, State.inBytes, hinBytes]
    _ = s.encTag := by rw [decState_encBytes, State.encTag]
    _ = u.suppliedTag := by rw [State.suppliedTag, hsupplied, block_toBytes]
  obtain ⟨-, v, out', hend, hv, hstatus, hplain, -, -⟩ := netEffectOfDec u hu hup hud huwf
  rw [if_pos hmatch] at hend hstatus
  refine ⟨v, hend, hstatus, ?_⟩
  rw [hv, hplain hmatch, hstart, State.inBytes, hinBytes, decBytes_encBytes]

end Sys2Proof.Machine

/-! PROOFS of the statements about a step and the host's lines (30_encoding.md R94, R101; 20_memory.md R65, R69, R74):
which lines let the core move, and what the host does with the three spaces. First what a step does at each line,
then the statements. -/

namespace Sys2Proof.Machine

-- a step at each line that is no register access and no reset

section
variable {s : State} {rest : List HostLine}

/-- A `CORE n` line that is not used up lets the core move (R101, R190). -/
theorem step_core_succ {n : Nat} (hs : s.script = .core (n + 1) :: rest) :
    step s = exec (decodeUop s.phase) { s with script := .core n :: rest } := by
  simp [step, fetch, hs]

/-- A `CORE 0` line is over (R101). -/
theorem step_core_zero (hs : s.script = .core 0 :: rest) : step s = .next { s with script := rest } := by
  simp [step, fetch, hs]

/-- While `BUSY` = 1 a `WAIT` line lets the core move (R101). -/
theorem step_wait_of_busy (hp : s.phase ≠ Phase.idle) (hs : s.script = .wait :: rest) :
    step s = exec (decodeUop s.phase) s := by
  simp [step, fetch, hs, busy_eq_true.2 hp]

/-- While `BUSY` = 0 a `WAIT` line reads `STATUS` and is over (R101). -/
theorem step_wait_of_idle (hp : s.phase = Phase.idle) (hs : s.script = .wait :: rest) :
    step s = .next { s with script := rest, readData := some (readReg .status s) } := by
  simp [step, fetch, hs, busy_eq_false.2 hp, readHostReg]

/-- While `BUSY` = 0 a write of a word that the command decoder accepts runs that command (R94). -/
theorem step_cmd_of_decode_ok {c : BitVec 8} {i : Instr} (hp : s.phase = Phase.idle)
    (hs : s.script = .wr (.cmd c) :: rest) (hdec : decodeCmd c = .ok i) :
    step s = exec i { s with script := rest } := by
  have hb : busy { s with script := rest } = false := busy_eq_false.2 hp
  simp [step, fetch, hs, fetchWrite, hb, hdec]

variable {sp : Space} {a n : Nat} {bs : List Byte}

/-- While `BUSY` = 0 a FILL line puts its bytes into the space (R101). -/
theorem step_fill_of_idle (hp : s.phase = Phase.idle) (hs : s.script = .fill sp a bs :: rest) :
    step s = .next (({ s with script := rest } : State).storeBytes sp a bs) := by
  have hb : busy { s with script := rest } = false := busy_eq_false.2 hp
  simp [step, fetch, hs, fillSpace, hb]

/-- While `BUSY` = 1 a FILL line is refused (R74). -/
theorem step_fill_of_busy (hp : s.phase ≠ Phase.idle) (hs : s.script = .fill sp a bs :: rest) :
    step s = .refused .spaceOwnedByCore := by
  have hb : busy { s with script := rest } = true := busy_eq_true.2 hp
  simp [step, fetch, hs, fillSpace, hb]

/-- While `BUSY` = 0 a DUMP line hands the host bytes of `OUT` (R101). -/
theorem step_dump_of_idle (hp : s.phase = Phase.idle) (hs : s.script = .dump a n :: rest) :
    step s = .next { s with script := rest, readData := some (.bytes (s.out.read a n)) } := by
  have hb : busy { s with script := rest } = false := busy_eq_false.2 hp
  simp [step, fetch, hs, dumpOut, hb]

/-- While `BUSY` = 1 a DUMP line is refused (R74). -/
theorem step_dump_of_busy (hp : s.phase ≠ Phase.idle) (hs : s.script = .dump a n :: rest) :
    step s = .refused .spaceOwnedByCore := by
  have hb : busy { s with script := rest } = true := busy_eq_true.2 hp
  simp [step, fetch, hs, dumpOut, hb]

end

/-- Under the canonical form of all three, each space has it. -/
theorem SpacesWf.space {s : State} (h : SpacesWf s) (sp : Space) : (s.space sp).wf := by
  obtain ⟨had, hinp, hout⟩ := h
  cases sp with
  | ad => exact had
  | inp => exact hinp
  | out => exact hout

-- the statements

/-- Settles O11: a FILL line stores its bytes by `MemWrite` in the space it names, a DUMP line reads them by
`MemRead`. -/
theorem hostFillAndDumpWhileIdle : Obligations.HostFillAndDumpWhileIdle := by
  refine fun s rest a n bs hp hwf => ⟨fun sp hs => ?fill, fun hs => ?dump⟩
  case fill =>
    refine ⟨(s.space sp).write a bs, ?_, fun i h => Memory.get_write_inside (hwf.space sp) a bs h,
      fun b hb => Memory.get_write_outside (hwf.space sp) a bs hb⟩
    rw [step_fill_of_idle hp hs]
    cases sp <;> rfl
  case dump =>
    exact ⟨s.out.read a n, Memory.length_read _ _ _, fun i h => Memory.getElem_read _ _ _ i h,
      step_dump_of_idle hp hs⟩

/-- Settles O4: the three lines at which the core moves. -/
theorem stepRunsThePhaseMicroOp : Obligations.StepRunsThePhaseMicroOp := fun _ _ _ =>
  ⟨step_core, step_core_succ, fun hs hp => step_wait_of_busy hp hs⟩

/-- Settles O5: the rule for a command word that decodes. -/
theorem stepRunsTheDecodedCommand : Obligations.StepRunsTheDecodedCommand := fun _ _ _ _ =>
  step_cmd_of_decode_ok

/-- Settles O12: the two refusals. -/
theorem hostSpaceAccessRefusedWhileBusy : Obligations.HostSpaceAccessRefusedWhileBusy := fun _ _ hp =>
  ⟨fun _ _ _ => step_fill_of_busy hp, fun _ _ => step_dump_of_busy hp⟩

/-- Settles O13: the two lines that are over without a move of the core. -/
theorem waitEndsWhenIdle : Obligations.WaitEndsWhenIdle := fun _ _ =>
  ⟨step_wait_of_idle, step_core_zero⟩

end Sys2Proof.Machine

/-! PROOFS of the statements about IDLE (47_commands_and_sequencer.md R198), about the states in which a
micro-operation stops (log 6, log 7), and about `STATUS` and the register reads (10_state.md R35; 60_exceptions.md
R228). First the two counters where their new value has no room, and `STATUS` as a function of its four parts, then
the statements. -/

namespace Sys2Proof.Machine

/-- IDLE never stops and hands its state on (R198). -/
theorem exec_idle (s : State) : exec .idle s = .next s := rfl

-- the counters without room

theorem nextPosition_eq_none {p : Len} (h : 2 ^ 64 ≤ p.toNat + 32) : nextPosition p = none := by
  unfold nextPosition Config.blockBytes
  exact if_neg (by omega)

theorem nextRound_eq_none {r : BitVec 5} (h : r.toNat = 31) : nextRound r = none := by
  unfold nextRound
  exact if_neg (by omega)

/-- A counted round whose count has no room (log 6). -/
theorem roundLoop_overflow {x0 x1 : W128} {stay exit : Phase} {s : State} (h : s.rnd.toNat = 31) :
    roundLoop x0 x1 stay exit s = .fault .counterOverflow := by
  have hlast : s.rnd ≠ Config.lastRound := fun e => by rw [e] at h; exact absurd h (by decide)
  unfold roundLoop
  rw [if_neg hlast, nextRound_eq_none h]

-- the parts of `STATUS`

/-- Register 1 from its four parts (R35). -/
def statusByte (dir : Bool) (err : BitVec 2) (done busy : Bool) : BitVec 8 :=
  0#3 ++ bit dir ++ err ++ bit done ++ bit busy

theorem status_eq (s : State) : status s = statusByte s.dir s.err s.done (busy s) := rfl

/-- Each part stands at its place (R35). -/
theorem statusByte_bits : ∀ (dir : Bool) (err : BitVec 2) (done busy : Bool),
    (statusByte dir err done busy).getLsbD 0 = busy ∧ (statusByte dir err done busy).getLsbD 1 = done ∧
    (statusByte dir err done busy).extractLsb' 2 2 = err ∧ (statusByte dir err done busy).getLsbD 4 = dir ∧
    (statusByte dir err done busy).extractLsb' 5 3 = 0#3 := by decide

theorem busy_eq_decide (s : State) : busy s = decide (s.phase ≠ Phase.idle) := by
  rw [Bool.eq_iff_iff, busy_eq_true, decide_eq_true_iff]

-- the statements

/-- Settles O10: the three cases of `StatusOk`, an operation in flight, the end of one, and neither. -/
theorem statusIsLegal : Obligations.StatusIsLegal := by
  intro s h
  obtain ⟨hflight, hended, hnone, hreset⟩ := h.status
  rw [status_eq]
  by_cases hp : s.phase = Phase.idle
  · rw [busy_eq_false.2 hp]
    cases hdone : s.done with
    | true =>
      obtain herr | ⟨herr, hdir⟩ := hended hdone
      · rw [herr]; cases s.dir <;> decide
      · rw [herr, hdir]; decide
    | false =>
      obtain herr | herr := hnone hdone
      · rw [herr, hreset hp hdone herr]; decide
      · rw [herr]; cases s.dir <;> decide
  · obtain ⟨hdone, herr⟩ := hflight hp
    rw [busy_eq_true.2 hp, hdone, herr]
    cases s.dir <;> decide

/-- Settles O9: the parts at their places, `BUSY` being the comparison of `PHASE` with IDLE. -/
theorem statusBits : Obligations.StatusBits := fun s => by
  rw [status_eq, ← busy_eq_decide]
  exact statusByte_bits _ _ _ _

/-- Settles O18: IDLE's rule. -/
theorem idleKeepsTheState : Obligations.IdleKeepsTheState := exec_idle

/-- Settles O39: each micro-operation at a counter or a remainder that its operand function has no value for. -/
theorem faultsOutsideTheSpecsStates : Obligations.FaultsOutsideTheSpecsStates := by
  refine fun s => ⟨fun h => ⟨roundLoop_overflow h, roundLoop_overflow h⟩, fun h => ?adFull,
    fun h => ⟨?encFull, ?decFull⟩,
    fun h => ?adPart, fun h => ⟨?encPart, ?decPart⟩⟩
  case adFull => simp only [exec, execAdFull, nextPosition_eq_none h]
  case encFull => simp only [exec, execEncFull, nextPosition_eq_none h]
  case decFull => simp only [exec, execDecFull, nextPosition_eq_none h]
  case adPart => simp only [exec, execAdPart, remainder_eq_none h]
  case encPart => simp only [exec, execEncPart, remainder_eq_none h]
  case decPart => simp only [exec, execDecPart, remainder_eq_none h]

/-- Settles O57: what a read returns is made of the registers that the two states share; `KEY` reads as zero. -/
theorem registerReadsHideSecrets : Obligations.RegisterReadsHideSecrets := by
  intro s u r hbusy hnonce hadlen hmlen hdone herr hdir
  cases r with
  | cmd | key => rfl
  | status => simp only [readReg, status_eq, hbusy, hdone, herr, hdir]
  | adlen => simp only [readReg, hadlen]
  | mlen => simp only [readReg, hmlen]
  | nonce => simp only [readReg, hnonce]

end Sys2Proof.Machine

/-! PROOFS of the statements about `AesRound` and its tables (40_aes_round_and_round.md R110 to R116). First the bytes
of the three layers, each from the bytes of its argument, then the statements. -/

namespace Sys2Proof.Machine

-- the bytes of the three layers

/-- SubBytes replaces each byte by itself (R112). -/
theorem byteAt_subBytes (b : W128) {i : Nat} (hi : i < 16) : byteAt (subBytes b) i = sbox (byteAt b i) := by
  rw [subBytes, byteAt_ofBytes _ _ (by omega), List.getD_eq_getElem _ _ (by simpa using hi), List.getElem_map,
    getElem_toBytes]

/-- ShiftRows moves a byte within its row, by the row's number of columns (R111, R114). -/
theorem byteAt_shiftRows (b : W128) {c r : Nat} (hc : c < 4) (hr : r < 4) :
    byteAt (shiftRows b) (4 * c + r) = byteAt b (4 * ((c + r) % 4) + r) := by
  have hindex : ∀ c < 4, ∀ r < 4, shiftRowsIndex[4 * c + r]? = some (4 * ((c + r) % 4) + r) := by decide
  rw [shiftRows, byteAt_ofBytes _ _ (by omega), List.getD_eq_getElem?_getD, List.getElem?_map, hindex c hc r hr]
  rfl

/-- MixColumns maps each column by itself (R115). -/
theorem byteAt_mixColumns (b : W128) {c r : Nat} (hc : c < 4) (hr : r < 4) :
    byteAt (mixColumns b) (4 * c + r) = (mixColumnAt b c).getD r 0 := by
  rw [mixColumns, byteAt_ofBytes _ _ (by omega)]
  interval_cases c <;> interval_cases r <;> rfl

/-- Byte `r` of column `c` after SubBytes and ShiftRows (R112, R114). -/
theorem byteAt_shiftRows_subBytes (b : W128) {c : Nat} (hc : c < 4) (r : Nat) (hr : r < 4) :
    byteAt (shiftRows (subBytes b)) (4 * c + r) = sbox (byteAt b (4 * ((c + r) % 4) + r)) := by
  rw [byteAt_shiftRows _ hc hr, byteAt_subBytes _ (by omega)]

/-- Column `c` of the round before the key, from the four bytes that ShiftRows brings into it (R110). -/
theorem mixColumnAt_shiftRows_subBytes (b : W128) {c : Nat} (hc : c < 4) :
    mixColumnAt (shiftRows (subBytes b)) c =
      mixColumn (sbox (byteAt b (4 * ((c + 0) % 4) + 0))) (sbox (byteAt b (4 * ((c + 1) % 4) + 1)))
        (sbox (byteAt b (4 * ((c + 2) % 4) + 2))) (sbox (byteAt b (4 * ((c + 3) % 4) + 3))) := by
  rw [mixColumnAt, ← byteAt_shiftRows_subBytes b hc 0 (by omega),
    ← byteAt_shiftRows_subBytes b hc 1 (by omega), ← byteAt_shiftRows_subBytes b hc 2 (by omega),
    ← byteAt_shiftRows_subBytes b hc 3 (by omega)]
  rfl

/-- Byte `r` of column `c` of the round, the key XORed last (R110). -/
theorem byteAt_aesRound (b rk : W128) {c : Nat} (hc : c < 4) (r : Nat) (hr : r < 4) :
    byteAt (aesRound b rk) (4 * c + r) =
      (mixColumnAt (shiftRows (subBytes b)) c).getD r 0 ^^^ byteAt rk (4 * c + r) := by
  rw [aesRound, byteAt_xor, byteAt_mixColumns _ hc hr]

-- the S-box

/-- What holds of every row and column of a table of bytes, as R112 lays it out, holds of every byte. -/
theorem forall_byte {P : Byte → Prop} (h : ∀ row col : BitVec 4, P (row ++ col)) (a : Byte) : P a := by
  have hsplit : a.extractLsb' 4 4 ++ a.extractLsb' 0 4 = a := by
    rw [BitVec.extractLsb'_append_extractLsb'_eq_extractLsb' (by rfl)]
    simp
  exact hsplit ▸ h _ _

/-- The inverse of R112's affine map. -/
def affineInv (v : Byte) : Byte := v.rotateLeft 1 ^^^ v.rotateLeft 3 ^^^ v.rotateLeft 6 ^^^ 0x05#8

theorem affine_affineInv : ∀ v : Byte, affine (affineInv v) = v :=
  forall_byte (by decide)

/-- What the affine map takes to an entry of the table is the inverse of the entry's index (R112). -/
theorem gmul_affineInv_sbox : ∀ a : Byte, a ≠ 0 → gmul a (affineInv (sbox a)) = 1 :=
  forall_byte (by decide)

-- the statements

/-- Settles O40: the column of the round before the key, one entry of it for each row. -/
theorem aesRoundBytes : Obligations.AesRoundBytes := by
  intro b rk c hc a
  have hcolumn := mixColumnAt_shiftRows_subBytes b hc
  refine ⟨?row0, ?row1, ?row2, ?row3⟩
  case row0 => exact (byteAt_aesRound b rk hc 0 (by omega)).trans (by rw [hcolumn]; rfl)
  case row1 => exact (byteAt_aesRound b rk hc 1 (by omega)).trans (by rw [hcolumn]; rfl)
  case row2 => exact (byteAt_aesRound b rk hc 2 (by omega)).trans (by rw [hcolumn]; rfl)
  case row3 => exact (byteAt_aesRound b rk hc 3 (by omega)).trans (by rw [hcolumn]; rfl)

/-- Settles O41: the entry at zero by evaluation; every other entry is the affine map of what `affineInv` takes it
back to. -/
theorem sboxIsAffineOfInverse : Obligations.SboxIsAffineOfInverse := by
  refine fun a => ⟨fun hzero => ?zero, fun hne => ⟨affineInv (sbox a), gmul_affineInv_sbox a hne, ?image⟩⟩
  case zero => rw [hzero]; decide
  case image => rw [affine_affineInv]

/-- Settles O42: the two constants evaluated, byte by byte. -/
theorem constantsZ0AndZ1 : Obligations.ConstantsZ0AndZ1 := ⟨rfl, rfl⟩

end Sys2Proof.Machine

/-! What a move of the core can do, said once: `CoreStep s t` has one constructor for each way a micro-operation ends,
and `exec_uop_iff` ties it to the machine; `step_next_cases` adds the host's moves. The statements about every step are
case analyses over the two. -/

namespace Sys2Proof.Machine

/-- The core moves from `s` to `t`: the micro-operation `PHASE` names, at each of its outcomes. The new `OUT` of a
micro-operation that writes there has a name of its own. -/
inductive CoreStep (s : State) : State → Prop where
  | idle (hp : s.phase = Phase.idle) : CoreStep s s
  | initLoad (hp : s.phase = Phase.initLoad) : CoreStep s { s with
      S := loadState s.key s.nonce, rnd := 0#5, adpos := 0#64, mpos := 0#64, fail := false,
      phase := Phase.initRound }
  | initRound (hp : s.phase = Phase.initRound) (hr : s.rnd ≠ 15#5) (hroom : s.rnd.toNat < 31) : CoreStep s { s with
      S := round s.S Config.z0 Config.z1, rnd := s.rnd + 1#5, phase := Phase.initRound }
  | initRoundLast (hp : s.phase = Phase.initRound) (hr : s.rnd = 15#5) : CoreStep s { s with
      S := round s.S Config.z0 Config.z1, rnd := 0#5, phase := Phase.initWhiten }
  | initWhiten (hp : s.phase = Phase.initWhiten) : CoreStep s { s with
      S := whiten s.S s.key, phase := adDispatch s.dir s.adlen s.adpos s.mlen s.mpos }
  | adFull (hp : s.phase = Phase.adFull) (hroom : s.adpos.toNat + 32 < 2 ^ 64) : CoreStep s { s with
      S := absorbBlock s.S (block (s.ad.read s.adpos.toNat 32)), adpos := s.adpos + 32#64,
      phase := adDispatch s.dir s.adlen (s.adpos + 32#64) s.mlen s.mpos }
  | adPart (hp : s.phase = Phase.adPart) (n : Nat) (hn : s.adpos.toNat + n = s.adlen.toNat) (h32 : n ≤ 32) :
      CoreStep s { s with
        S := absorbBlock s.S (block (s.ad.read s.adpos.toNat n)), W := block (s.ad.read s.adpos.toNat n),
        adpos := s.adlen, phase := msgDispatch s.dir s.mlen s.mpos }
  | encFull (hp : s.phase = Phase.encFull) (hroom : s.mpos.toNat + 32 < 2 ^ 64) (out : Memory)
      (hout : out = s.out.write s.mpos.toNat
        (toBytes (cipherBlock s.S (block (s.inp.read s.mpos.toNat 32))) 32)) :
      CoreStep s { s with
        out := out, S := absorbBlock s.S (block (s.inp.read s.mpos.toNat 32)), mpos := s.mpos + 32#64,
        phase := msgDispatch s.dir s.mlen (s.mpos + 32#64) }
  | encPart (hp : s.phase = Phase.encPart) (n : Nat) (hn : s.mpos.toNat + n = s.mlen.toNat) (h32 : n ≤ 32)
      (out : Memory)
      (hout : out = s.out.write s.mpos.toNat
        (toBytes (cipherBlock s.S (block (s.inp.read s.mpos.toNat n))) n)) :
      CoreStep s { s with
        out := out, W := block (s.inp.read s.mpos.toNat n),
        S := absorbBlock s.S (block (s.inp.read s.mpos.toNat n)), mpos := s.mlen, phase := Phase.finRound }
  | decFull (hp : s.phase = Phase.decFull) (hroom : s.mpos.toNat + 32 < 2 ^ 64) (out : Memory)
      (hout : out = s.out.write s.mpos.toNat
        (toBytes (cipherBlock s.S (block (s.inp.read s.mpos.toNat 32))) 32)) :
      CoreStep s { s with
        out := out, S := absorbBlock s.S (cipherBlock s.S (block (s.inp.read s.mpos.toNat 32))),
        mpos := s.mpos + 32#64, phase := msgDispatch s.dir s.mlen (s.mpos + 32#64) }
  | decPart (hp : s.phase = Phase.decPart) (n : Nat) (hn : s.mpos.toNat + n = s.mlen.toNat) (h32 : n ≤ 32)
      (out : Memory)
      (hout : out = s.out.write s.mpos.toNat
        (toBytes (keepBytes (cipherBlock s.S (block (s.inp.read s.mpos.toNat n))) n) n)) :
      CoreStep s { s with
        out := out, W := keepBytes (cipherBlock s.S (block (s.inp.read s.mpos.toNat n))) n,
        S := absorbBlock s.S (keepBytes (cipherBlock s.S (block (s.inp.read s.mpos.toNat n))) n),
        mpos := s.mlen, phase := Phase.finRound }
  | finRound (hp : s.phase = Phase.finRound) (hr : s.rnd ≠ 15#5) (hroom : s.rnd.toNat < 31) : CoreStep s { s with
      S := round s.S (lengthWord s.adlen) (lengthWord s.mlen), rnd := s.rnd + 1#5, phase := Phase.finRound }
  | finRoundLast (hp : s.phase = Phase.finRound) (hr : s.rnd = 15#5) : CoreStep s { s with
      S := round s.S (lengthWord s.adlen) (lengthWord s.mlen), rnd := 0#5, phase := Phase.tagDerive }
  | tagDerive (hp : s.phase = Phase.tagDerive) : CoreStep s { s with
      T := foldTag s.S, phase := if s.dir then Phase.tagVerify else Phase.tagWrite }
  | tagWrite (hp : s.phase = Phase.tagWrite) (out : Memory)
      (hout : out = s.out.write s.mlen.toNat (toBytes s.T 32)) :
      CoreStep s { s with out := out, phase := Phase.zeroize }
  | tagVerifyMatch (hp : s.phase = Phase.tagVerify) (hv : s.verdict = true) :
      CoreStep s { s with fail := false, phase := Phase.zeroize }
  | tagVerifyMismatch (hp : s.phase = Phase.tagVerify) (hv : s.verdict = false) :
      CoreStep s { s with fail := true, phase := Phase.outWipe }
  | outWipe (hp : s.phase = Phase.outWipe) (out : Memory) (hout : out = s.out.wipe s.mlen.toNat) :
      CoreStep s { s with out := out, phase := Phase.zeroize }
  | zeroize (hp : s.phase = Phase.zeroize) : CoreStep s { s with
      S := CipherState.zero, W := 0#256, T := 0#256, rnd := 0#5, adpos := 0#64, mpos := 0#64,
      done := true, err := outcomeCode s.fail, fail := false, phase := Phase.idle }

/-- A counted round that is not the last, wherever its count has room (R132, R172; log 5). -/
theorem roundLoop_stay_of_room {x0 x1 : W128} {stay exit : Phase} {s : State} (h : s.rnd ≠ 15#5)
    (hroom : s.rnd.toNat < 31) :
    roundLoop x0 x1 stay exit s =
      .next { s with S := round s.S x0 x1, rnd := s.rnd + 1#5, phase := stay } := by
  have hnext : nextRound s.rnd = some (s.rnd + 1#5) := nextRound_eq_some.2 ⟨hroom, rfl⟩
  unfold roundLoop
  rw [if_neg h, hnext]

/-- Whatever the micro-operation `PHASE` names answers is one of the cases. -/
theorem coreStep_of_exec {s t : State} (h : exec (decodeUop s.phase) s = .next t) : CoreStep s t := by
  obtain hp | hp | hp | hp | hp | hp | hp | hp | hp | hp | hp | hp | hp | hp | hp | hp := phase_cases s.phase <;>
    rw [hp] at h
  case _ => injection h with h; exact h ▸ .idle hp
  case _ => rw [execInitLoad_next h]; exact .initLoad hp
  case _ =>
    obtain ⟨hr, rfl⟩ | ⟨hr, hroom, rfl⟩ := roundLoop_cases h
    exacts [.initRoundLast hp hr, .initRound hp hr hroom]
  case _ => rw [execInitWhiten_next h]; exact .initWhiten hp
  case _ => obtain ⟨hroom, rfl⟩ := execAdFull_next h; exact .adFull hp hroom
  case _ => obtain ⟨n, hn, h32, rfl⟩ := execAdPart_next h; exact .adPart hp n hn h32
  case _ => obtain ⟨hroom, out, hout, rfl⟩ := execEncFull_next h; exact .encFull hp hroom out hout
  case _ => obtain ⟨n, out, hn, h32, hout, rfl⟩ := execEncPart_next h; exact .encPart hp n hn h32 out hout
  case _ => obtain ⟨hroom, out, hout, rfl⟩ := execDecFull_next h; exact .decFull hp hroom out hout
  case _ => obtain ⟨n, out, hn, h32, hout, rfl⟩ := execDecPart_next h; exact .decPart hp n hn h32 out hout
  case _ =>
    obtain ⟨hr, rfl⟩ | ⟨hr, hroom, rfl⟩ := roundLoop_cases h
    exacts [.finRoundLast hp hr, .finRound hp hr hroom]
  case _ => rw [execTagDerive_next h]; exact .tagDerive hp
  case _ => obtain ⟨out, hout, rfl⟩ := execTagWrite_next h; exact .tagWrite hp out hout
  case _ =>
    obtain ⟨hv, rfl⟩ | ⟨hv, rfl⟩ := execTagVerify_next h
    exacts [.tagVerifyMatch hp hv, .tagVerifyMismatch hp hv]
  case _ => obtain ⟨out, hout, rfl⟩ := execOutWipe_next h; exact .outWipe hp out hout
  case _ => rw [execZeroize_next h]; exact .zeroize hp

/-- Each of the cases is what the micro-operation `PHASE` names answers. -/
theorem exec_of_coreStep {s t : State} (h : CoreStep s t) : exec (decodeUop s.phase) s = .next t := by
  cases h with
  | idle hp | initLoad hp | initWhiten hp | tagDerive hp | zeroize hp => rw [hp]; rfl
  | initRound hp hr hroom | finRound hp hr hroom => rw [hp]; exact roundLoop_stay_of_room hr hroom
  | initRoundLast hp hr | finRoundLast hp hr => rw [hp]; exact roundLoop_exit hr
  | adFull hp hroom => rw [hp]; exact execAdFull_eq hroom
  | adPart hp n hn h32 => rw [hp]; exact execAdPart_eq hn h32
  | encFull hp hroom out hout => rw [hp]; exact execEncFull_eq hroom hout
  | encPart hp n hn h32 out hout => rw [hp]; exact execEncPart_eq hn h32 hout
  | decFull hp hroom out hout => rw [hp]; exact execDecFull_eq hroom hout
  | decPart hp n hn h32 out hout => rw [hp]; exact execDecPart_eq hn h32 hout
  | tagWrite hp out hout => rw [hp]; exact execTagWrite_eq hout
  | tagVerifyMatch hp hv | tagVerifyMismatch hp hv => rw [hp]; exact (exec_tagVerify s).trans (by simp [hv])
  | outWipe hp out hout => rw [hp]; exact execOutWipe_eq hout

/-- A move of the core is one of the cases, and each of them is one. -/
theorem exec_uop_iff {s t : State} : exec (decodeUop s.phase) s = .next t ↔ CoreStep s t :=
  ⟨coreStep_of_exec, exec_of_coreStep⟩

/-- With no host line before it, a step is a move of the core (R190). -/
theorem step_iff_coreStep {s t : State} (hs : s.script = []) : step s = .next t ↔ CoreStep s t := by
  rw [step_core hs, exec_uop_iff]

/-- A command with the core idle does nothing or starts an operation (R191 to R193). -/
theorem exec_command_of_idle {s t : State} {c : BitVec 8} {i : Instr} (hp : s.phase = Phase.idle)
    (hdec : decodeCmd c = .ok i) (h : exec i s = .next t) :
    t = s ∨ (c = 0x01#8 ∨ c = 0x02#8) ∧
      ∃ d, t = { s with dir := d, done := false, err := 0#2, phase := Phase.initLoad } := by
  obtain ⟨-, rfl⟩ | ⟨hc, rfl⟩ | ⟨hc, rfl⟩ := decodeCmd_ok hdec
  · exact .inl (Host.Outcome.next.inj h).symm
  · exact .inr ⟨.inl hc, false, (Host.Outcome.next.inj h).symm.trans (acceptCommand_idle hp false)⟩
  · exact .inr ⟨.inr hc, true, (Host.Outcome.next.inj h).symm.trans (acceptCommand_idle hp true)⟩

/-- All a step can do, with the core's moves and the commands written out: the core moves; a reset; an operation
starts; an illegal command; a register write; a host FILL; a host line that changes nothing of the core. -/
theorem step_next_cases {s t : State} (h : step s = .next t) :
    (∃ sc, CoreStep { s with script := sc } t) ∨
    (∃ rest, s.script = .reset :: rest ∧ t = resetEvent { s with script := rest }) ∨
    (s.phase = Phase.idle ∧ ∃ c d rest, s.script = .wr (.cmd c) :: rest ∧ (c = 0x01#8 ∨ c = 0x02#8) ∧
      t = { s with script := rest, dir := d, done := false, err := 0#2, phase := Phase.initLoad }) ∨
    (s.phase = Phase.idle ∧ ∃ rest, t = raise .illegalCmd { s with script := rest }) ∨
    (s.phase = Phase.idle ∧ ∃ w rest, t = writeReg w { s with script := rest }) ∨
    (s.phase = Phase.idle ∧ ∃ sp a bs rest, t = ({ s with script := rest } : State).storeBytes sp a bs) ∨
    (∃ sc rd, t = { s with script := sc, readData := rd }) := by
  obtain ⟨sc, -, hcore⟩ | ⟨hp, c, i, rest, hs, hdec, hcmd⟩ | hreset | ⟨hp, c, rest, -, ht⟩ |
    ⟨hp, w, rest, -, ht⟩ | ⟨hp, sp, a, bs, rest, -, ht⟩ | ⟨sc, rd, -, ht⟩ := step_cases h
  case _ => exact .inl ⟨sc, @coreStep_of_exec { s with script := sc } t hcore⟩
  case _ =>
    obtain ht | ⟨hc, d, ht⟩ := @exec_command_of_idle { s with script := rest } t c i hp hdec hcmd
    · exact .inr (.inr (.inr (.inr (.inr (.inr ⟨rest, s.readData, ht⟩)))))
    · exact .inr (.inr (.inl ⟨hp, c, d, rest, hs, hc, ht⟩))
  case _ => exact .inr (.inl hreset)
  case _ => exact .inr (.inr (.inr (.inl ⟨hp, rest, ht⟩)))
  case _ => exact .inr (.inr (.inr (.inr (.inl ⟨hp, w, rest, ht⟩))))
  case _ => exact .inr (.inr (.inr (.inr (.inr (.inl ⟨hp, sp, a, bs, rest, ht⟩)))))
  case _ => exact .inr (.inr (.inr (.inr (.inr (.inr ⟨sc, rd, ht⟩)))))

end Sys2Proof.Machine

/-! PROOFS of the statements about how an operation starts and ends, and about the idle core
(47_commands_and_sequencer.md R195, R198, R205; 10_state.md R43; 70_reset_and_hazards.md R251): only ENC and DEC leave
IDLE, only ZEROIZE and a reset reach it, and the idle core holds no secret. All three turn on the moves of the core
that end in IDLE. -/

namespace Sys2Proof.Machine

/-- What ZEROIZE leaves of an operation (R205). -/
def State.zeroized (s : State) : State :=
  { s with
    S := CipherState.zero, W := 0#256, T := 0#256, rnd := 0#5, adpos := 0#64, mpos := 0#64,
    done := true, err := outcomeCode s.fail, fail := false, phase := Phase.idle }

/-- Only a turn of the idle core and ZEROIZE end in IDLE (R198, R205). -/
theorem CoreStep.reaches_idle {s t : State} (h : CoreStep s t) (ht : t.phase = Phase.idle) :
    (s.phase = Phase.idle ∧ t = s) ∨ (s.phase = Phase.zeroize ∧ t = s.zeroized) := by
  have hderive : ∀ d : Bool, (if d then Phase.tagVerify else Phase.tagWrite) ≠ Phase.idle := by decide
  cases h with
  | idle hp => exact .inl ⟨hp, rfl⟩
  | zeroize hp => exact .inr ⟨hp, rfl⟩
  | initWhiten | adFull => exact absurd ht (adDispatch_ne_idle _ _ _ _ _)
  | adPart | encFull | decFull => exact absurd ht (msgDispatch_ne_idle _ _ _)
  | tagDerive => exact absurd ht (hderive _)
  | _ => exact absurd ht (by dsimp only; decide)

/-- A turn of the idle core leaves it idle (R198). -/
theorem CoreStep.phase_of_idle {s t : State} (h : CoreStep s t) (hp : s.phase = Phase.idle) :
    t.phase = Phase.idle := by
  have hexec := exec_of_coreStep h
  rw [hp] at hexec
  exact Host.Outcome.next.inj hexec ▸ hp

theorem IdleClean.writeReg {s : State} (h : IdleClean s) (w : RegWrite) : IdleClean (writeReg w s) := by
  cases w <;> exact h

theorem IdleClean.storeBytes {s : State} (h : IdleClean s) (sp : Space) (a : Nat) (bs : List Byte) :
    IdleClean (s.storeBytes sp a bs) := by
  cases sp <;> exact h

theorem phase_writeReg (w : RegWrite) (s : State) : (writeReg w s).phase = s.phase := by
  cases w <;> rfl

theorem phase_storeBytes (sp : Space) (a : Nat) (bs : List Byte) (s : State) :
    (s.storeBytes sp a bs).phase = s.phase := by
  cases sp <;> rfl

-- the statements

/-- Settles O53: the moves that end in IDLE leave the state as it was or erased; a reset erases; every other host line
leaves the seven registers and `PHASE`, or starts an operation. -/
theorem idleCoreHoldsNoSecret : Obligations.IdleCoreHoldsNoSecret := by
  intro s t hclean h
  obtain ⟨sc, hcore⟩ | ⟨rest, -, rfl⟩ | ⟨-, c, d, rest, -, -, rfl⟩ | ⟨-, rest, rfl⟩ | ⟨-, w, rest, rfl⟩ |
    ⟨-, sp, a, bs, rest, rfl⟩ | ⟨sc, rd, rfl⟩ := step_next_cases h
  case _ =>
    intro ht
    obtain ⟨hp, rfl⟩ | ⟨-, rfl⟩ := hcore.reaches_idle ht
    · exact hclean hp
    · exact ⟨rfl, rfl, rfl, rfl, rfl, rfl, rfl⟩
  case _ => exact fun _ => ⟨rfl, rfl, rfl, rfl, rfl, rfl, rfl⟩
  case _ => exact fun ht => absurd ht (by dsimp only; decide)
  case _ => exact hclean
  case _ => exact @IdleClean.writeReg { s with script := rest } hclean w
  case _ => exact @IdleClean.storeBytes { s with script := rest } hclean sp a bs
  case _ => exact hclean

/-- Settles O54: a turn of the idle core and every host line but ENC and DEC leave `PHASE` at IDLE. -/
theorem onlyEncOrDecLeavesIdle : Obligations.OnlyEncOrDecLeavesIdle := by
  intro s t hp h hbusy
  obtain ⟨sc, hcore⟩ | ⟨rest, -, rfl⟩ | ⟨-, c, d, rest, hs, hc, rfl⟩ | ⟨-, rest, rfl⟩ | ⟨-, w, rest, rfl⟩ |
    ⟨-, sp, a, bs, rest, rfl⟩ | ⟨sc, rd, rfl⟩ := step_next_cases h
  case _ => exact absurd (hcore.phase_of_idle hp) hbusy
  case _ => exact absurd rfl hbusy
  case _ => exact ⟨c, rest, hs, hc, rfl⟩
  case _ => exact absurd hp hbusy
  case _ => exact absurd (by rw [phase_writeReg]; exact hp) hbusy
  case _ => exact absurd (by rw [phase_storeBytes]; exact hp) hbusy
  case _ => exact absurd hp hbusy

/-- Settles O55: of the moves that end in IDLE only ZEROIZE starts in a busy state; of the host's lines that act on a
busy core only a reset changes `PHASE`. -/
theorem onlyZeroizeOrResetReachesIdle : Obligations.OnlyZeroizeOrResetReachesIdle := by
  intro s t hbusy h ht
  obtain ⟨sc, hcore⟩ | ⟨rest, hs, -⟩ | ⟨hp, -⟩ | ⟨hp, -⟩ | ⟨hp, -⟩ | ⟨hp, -⟩ | ⟨sc, rd, rfl⟩ := step_next_cases h
  case _ =>
    obtain ⟨hp, -⟩ | ⟨hp, -⟩ := hcore.reaches_idle ht
    · exact absurd hp hbusy
    · exact .inl hp
  case _ => exact .inr ⟨rest, hs⟩
  case _ => exact absurd hp hbusy
  case _ => exact absurd hp hbusy
  case _ => exact absurd hp hbusy
  case _ => exact absurd hp hbusy
  case _ => exact absurd ht hbusy

end Sys2Proof.Machine

/-! PROOFS of the statements about the machine's invariant (10_state.md R25, R27 to R29, R35, R43;
47_commands_and_sequencer.md): reset meets it, every step keeps it, and under it no step faults (20_memory.md R63,
60_exceptions.md R223). First the three kinds of state in which few of its parts say anything: the idle core
(`Inv.of_idle`), an operation in flight (`Inv.of_flight`), and one between initialization and finalization (`InPass`),
where the dispatch functions choose the next micro-operation. -/

namespace Sys2Proof.Machine

-- the idle core and an operation in flight

/-- In an idle core the erased registers meet all but the spaces' form and `STATUS` (R43). -/
theorem Inv.of_idle {s : State} (hp : s.phase = Phase.idle) (hspaces : SpacesWf s) (hclean : IdleClean s)
    (hstatus : StatusOk s) : Inv s := by
  obtain ⟨-, -, hT, hrnd, hadpos, hmpos, hfail⟩ := hclean hp
  constructor
  case spaces => exact hspaces
  case idleClean => exact hclean
  case round => simp [RoundCounterOk, hrnd]
  case positions => simp [PositionsOk, hadpos, hmpos]
  case verdict => simp +decide [VerdictOk, hp, hfail]
  case dispatch => simp +decide [DispatchOk, hp]
  case status => exact hstatus
  case scratch => simp +decide [ScratchOk, hp, hT]

/-- In flight the idle invariant says nothing, and `STATUS` is `BUSY` and `DIR` alone (R35). -/
theorem Inv.of_flight {s : State} (hp : s.phase ≠ Phase.idle) (hspaces : SpacesWf s) (hround : RoundCounterOk s)
    (hpositions : PositionsOk s) (hverdict : VerdictOk s) (hdispatch : DispatchOk s)
    (hstatus : s.done = false ∧ s.err = 0#2) (hscratch : ScratchOk s) : Inv s := by
  obtain ⟨hdone, herr⟩ := hstatus
  refine ⟨hspaces, fun hidle => absurd hidle hp, hround, hpositions, hverdict, hdispatch, ?_, hscratch⟩
  simp [StatusOk, hp, hdone, herr]

theorem Inv.status_of_flight {s : State} (h : Inv s) (hp : s.phase ≠ Phase.idle) : s.done = false ∧ s.err = 0#2 :=
  h.status.1 hp

-- an operation between initialization and finalization

/-- What holds between the last round of initialization and the first of finalization, whatever micro-operation is
next. -/
structure InPass (s : State) : Prop where
  spaces : SpacesWf s
  positions : PositionsOk s
  rnd : s.rnd = 0#5
  fail : s.fail = false
  status : s.done = false ∧ s.err = 0#2
  tag : s.T = 0#256

/-- The micro-operations between the two round loops: they end in a dispatch function, or, after a partial message
block, in what it would answer there. -/
def passPhases : List Phase :=
  [Phase.initWhiten, Phase.adFull, Phase.adPart, Phase.encFull, Phase.encPart, Phase.decFull, Phase.decPart]

/-- The micro-operations that a dispatch function answers (R196, R197). -/
def dispatchPhases : List Phase :=
  [Phase.adFull, Phase.adPart, Phase.encFull, Phase.encPart, Phase.decFull, Phase.decPart, Phase.finRound]

theorem Inv.inPass {s : State} (h : Inv s) (hp : s.phase ∈ passPhases) : InPass s := by
  have hphases : ∀ p ∈ passPhases, p ≠ Phase.idle ∧ p ≠ Phase.initRound ∧ p ≠ Phase.finRound ∧
      p ≠ Phase.tagWrite ∧ p ≠ Phase.tagVerify ∧ p ≠ Phase.outWipe ∧ p ≠ Phase.zeroize := by decide
  obtain ⟨hidle, hinit, hfin, hwrite, hverify, hwipe, hzero⟩ := hphases _ hp
  obtain ⟨-, hrnd⟩ := h.round
  obtain ⟨hfail, -⟩ := h.verdict
  obtain ⟨-, hT⟩ := h.scratch
  refine ⟨h.spaces, h.positions, hrnd hinit hfin, ?_, h.status_of_flight hidle, hT hwrite hverify hwipe hzero⟩
  refine Bool.eq_false_iff.2 fun hf => ?_
  obtain ⟨-, h | h⟩ := hfail hf
  · exact hwipe h
  · exact hzero h

theorem InPass.inv {s : State} (h : InPass s) (hp : s.phase ∈ dispatchPhases) (hdispatch : DispatchOk s) :
    Inv s := by
  have hphases : ∀ p ∈ dispatchPhases, p ≠ Phase.idle ∧ p ≠ Phase.outWipe ∧ p ≠ Phase.initLoad ∧
      p ≠ Phase.initRound ∧ p ≠ Phase.initWhiten := by decide
  obtain ⟨hidle, hwipe, hload, hinit, hwhiten⟩ := hphases _ hp
  refine Inv.of_flight hidle h.spaces ?round h.positions ?verdict hdispatch h.status ?scratch
  case round => simp [RoundCounterOk, h.rnd]
  case verdict => simp [VerdictOk, h.fail, hwipe]
  case scratch => simp [ScratchOk, hload, hinit, hwhiten, h.tag]

/-- What `msg_dispatch()` answers has its precondition (R197). -/
theorem dispatchOk_of_msgDispatch {s : State} (hpos : s.mpos.toNat ≤ s.mlen.toNat)
    (hp : s.phase = msgDispatch s.dir s.mlen s.mpos) : s.phase ∈ dispatchPhases ∧ DispatchOk s := by
  obtain ⟨h, ⟨hd, e⟩ | ⟨hd, e⟩⟩ | ⟨h, h', ⟨hd, e⟩ | ⟨hd, e⟩⟩ | ⟨-, e⟩ := msgDispatch_cases s.dir hpos <;>
    simp_all +decide [dispatchPhases, DispatchOk]

/-- What `ad_dispatch()` answers has its precondition (R196). -/
theorem dispatchOk_of_adDispatch {s : State} (hadpos : s.adpos.toNat ≤ s.adlen.toNat)
    (hmpos : s.mpos.toNat ≤ s.mlen.toNat) (hp : s.phase = adDispatch s.dir s.adlen s.adpos s.mlen s.mpos) :
    s.phase ∈ dispatchPhases ∧ DispatchOk s := by
  obtain ⟨h, e⟩ | ⟨h, h', e⟩ | ⟨-, e⟩ := adDispatch_cases s.dir s.mlen s.mpos hadpos
  · simp_all +decide [dispatchPhases, DispatchOk]
  · simp_all +decide [dispatchPhases, DispatchOk]
  · exact dispatchOk_of_msgDispatch hmpos (hp.trans e)

theorem InPass.inv_of_msgDispatch {s : State} (h : InPass s) (hp : s.phase = msgDispatch s.dir s.mlen s.mpos) :
    Inv s := by
  obtain ⟨-, hmpos, -⟩ := h.positions
  obtain ⟨hphase, hdispatch⟩ := dispatchOk_of_msgDispatch hmpos hp
  exact h.inv hphase hdispatch

theorem InPass.inv_of_adDispatch {s : State} (h : InPass s)
    (hp : s.phase = adDispatch s.dir s.adlen s.adpos s.mlen s.mpos) : Inv s := by
  obtain ⟨hadpos, hmpos, -⟩ := h.positions
  obtain ⟨hphase, hdispatch⟩ := dispatchOk_of_adDispatch hadpos hmpos hp
  exact h.inv hphase hdispatch

-- the moves of the core, in the order of an operation

section
variable {s : State} (h : Inv s)
include h

/-- INIT_LOAD clears what the invariant speaks of but `W` and `T`, which are still clear (R131, R135). -/
theorem Inv.initLoad (hp : s.phase = Phase.initLoad) (S : CipherState) : Inv { s with
    S := S, rnd := 0#5, adpos := 0#64, mpos := 0#64, fail := false, phase := Phase.initRound } := by
  obtain ⟨hW, hT⟩ := h.scratch
  have hstatus := h.status_of_flight (by rw [hp]; decide)
  refine Inv.of_flight (by dsimp only; decide) h.spaces ?round ?positions ?verdict ?dispatch hstatus ?scratch
  case round => simp [RoundCounterOk]
  case positions => simp [PositionsOk]
  case verdict => simp +decide [VerdictOk]
  case dispatch => simp +decide [DispatchOk]
  case scratch => simp +decide [ScratchOk, hW (.inl hp), hT, hp]

/-- The count of a round loop that goes on stays in its range (R27). -/
theorem Inv.next_round_le (hr : s.rnd ≠ 15#5) : (s.rnd + 1#5).toNat ≤ 15 := by
  have hcount : ∀ r : BitVec 5, r.toNat ≤ 15 → r ≠ 15#5 → (r + 1#5).toNat ≤ 15 := by decide
  obtain ⟨hle, -⟩ := h.round
  exact hcount _ hle hr

/-- A move of one of the two round loops, inside it or out of it (R132, R172). -/
theorem Inv.round_move {p : Phase} {r : BitVec 5} (S : CipherState)
    (hloop : s.phase = Phase.initRound ∧ (p = Phase.initRound ∨ p = Phase.initWhiten) ∨
      s.phase = Phase.finRound ∧ (p = Phase.finRound ∨ p = Phase.tagDerive))
    (hround : RoundCounterOk { s with rnd := r, phase := p }) :
    Inv { s with S := S, rnd := r, phase := p } := by
  obtain ⟨hW, hT⟩ := h.scratch
  obtain ⟨hfail, -⟩ := h.verdict
  obtain ⟨hp, rfl | rfl⟩ | ⟨hp, rfl | rfl⟩ := hloop
  all_goals
    have hstatus := h.status_of_flight (by rw [hp]; decide)
    refine Inv.of_flight (by dsimp only; decide) h.spaces hround h.positions ?verdict ?dispatch hstatus ?scratch
    case verdict => simp_all +decide [VerdictOk]
    case dispatch => simp +decide [DispatchOk]
    case scratch => simp_all +decide [ScratchOk]

/-- The fold ends the finalization with nothing but the tag left to do (R174). -/
theorem Inv.tagDerive (hp : s.phase = Phase.tagDerive) (T : W256) :
    Inv { s with T := T, phase := if s.dir then Phase.tagVerify else Phase.tagWrite } := by
  obtain ⟨-, hrnd⟩ := h.round
  obtain ⟨hfail, -⟩ := h.verdict
  have hstatus := h.status_of_flight (by rw [hp]; decide)
  cases hd : s.dir
  all_goals
    refine Inv.of_flight (by dsimp only; decide) h.spaces ?round h.positions ?verdict ?dispatch hstatus ?scratch
    case round => simp_all +decide [RoundCounterOk]
    case verdict => simp_all +decide [VerdictOk]
    case dispatch => simp +decide [DispatchOk]
    case scratch => simp +decide [ScratchOk]

/-- A move from the tag to ZEROIZE, and that to OUT_WIPE, where a DEC has failed (R176, R182, R184). -/
theorem Inv.tag_move {p : Phase} {f : Bool} {out : Memory} (hwf : out.wf)
    (hp : s.phase = Phase.tagWrite ∨ s.phase = Phase.tagVerify ∨ s.phase = Phase.outWipe)
    (hnext : p = Phase.zeroize ∨ p = Phase.outWipe ∧ f = true) (hf : f = true → s.dir = true) :
    Inv { s with fail := f, out := out, phase := p } := by
  obtain ⟨had, hinp, -⟩ := h.spaces
  obtain ⟨-, hrnd⟩ := h.round
  have hflight : s.phase ≠ Phase.idle ∧ s.phase ≠ Phase.initRound ∧ s.phase ≠ Phase.finRound := by
    obtain hp | hp | hp := hp <;> rw [hp] <;> decide
  obtain ⟨hbusy, hinit, hfin⟩ := hflight
  have hstatus := h.status_of_flight hbusy
  obtain rfl | ⟨rfl, rfl⟩ := hnext
  all_goals
    refine Inv.of_flight (by dsimp only; decide) ⟨had, hinp, hwf⟩ ?round h.positions ?verdict ?dispatch hstatus ?scratch
    case round => simp [RoundCounterOk, hrnd hinit hfin]
    case verdict => simp_all +decide [VerdictOk]
    case dispatch => simp_all +decide [DispatchOk]
    case scratch => simp +decide [ScratchOk]

/-- ZEROIZE reports a failed verification only for a DEC (R35, R205). -/
theorem Inv.zeroized : Inv s.zeroized := by
  obtain ⟨hfail, -⟩ := h.verdict
  refine Inv.of_idle rfl h.spaces (fun _ => ⟨rfl, rfl, rfl, rfl, rfl, rfl, rfl⟩) ?_
  cases hf : s.fail with
  | false => simp [StatusOk, State.zeroized, outcomeCode_eq, hf]
  | true =>
    obtain ⟨hd, -⟩ := hfail hf
    simp [StatusOk, State.zeroized, outcomeCode_eq, hf, hd]

end

-- the moves of the pass

/-- The position after a whole block stays within its length (R28). -/
theorem position_after_block {len pos : Len} (h : pos.toNat + 32 ≤ len.toNat) (hmult : pos = len ∨ pos.toNat % 32 = 0) :
    (pos + 32#64).toNat ≤ len.toNat ∧ (pos + 32#64 = len ∨ (pos + 32#64).toNat % 32 = 0) := by
  have hadd : (pos + 32#64).toNat = pos.toNat + 32 := toNat_add_block (h.trans_lt len.isLt)
  obtain rfl | hmult := hmult
  · omega
  · exact ⟨by omega, .inr (by omega)⟩

section
variable {s : State} (h : InPass s)
include h

/-- Absorbing moves `ADPOS` within its length (R142, R144). -/
theorem InPass.absorb {pos : Len} (S : CipherState) (w : W256) (p : Phase) (hle : pos.toNat ≤ s.adlen.toNat)
    (hmult : pos = s.adlen ∨ pos.toNat % 32 = 0) : InPass { s with S := S, W := w, adpos := pos, phase := p } := by
  obtain ⟨-, hmpos, -, hmmult⟩ := h.positions
  exact ⟨h.spaces, ⟨hle, hmpos, hmult, hmmult⟩, h.rnd, h.fail, h.status, h.tag⟩

/-- A message block moves `MPOS` within its length and writes bytes to `OUT` (R152, R154, R162, R164). -/
theorem InPass.message {pos : Len} {out : Memory} (S : CipherState) (w : W256) (p : Phase) {a : Nat} {bs : List Byte}
    (hle : pos.toNat ≤ s.mlen.toNat) (hmult : pos = s.mlen ∨ pos.toNat % 32 = 0) (hout : out = s.out.write a bs) :
    InPass { s with S := S, W := w, mpos := pos, out := out, phase := p } := by
  obtain ⟨had, hinp, hwf⟩ := h.spaces
  obtain ⟨hadpos, -, hamult, -⟩ := h.positions
  exact ⟨⟨had, hinp, hout ▸ Memory.wf_write hwf a bs⟩, ⟨hadpos, hle, hamult, hmult⟩, h.rnd, h.fail, h.status, h.tag⟩

end

-- every move of the core, and every line of the host

/-- Every move of the core keeps the invariant. -/
theorem CoreStep.keeps_inv {s t : State} (h : CoreStep s t) (hinv : Inv s) : Inv t := by
  obtain ⟨hadpos, hmpos, hamult, hmmult⟩ := hinv.positions
  obtain ⟨had, hinp, hwf⟩ := hinv.spaces
  obtain ⟨hadFull, -, hfull, -, -, hdec⟩ := hinv.dispatch
  have hdir : s.fail = true → s.dir = true := fun hf =>
    let ⟨hd, _⟩ := hinv.verdict.1 hf
    hd
  have hpass := hinv.inPass
  cases h with
  | idle => exact hinv
  | initLoad hp => exact hinv.initLoad hp _
  | initRound hp hr | finRound hp hr =>
    exact hinv.round_move _ (by simp [hp]) ⟨hinv.next_round_le hr, by simp⟩
  | initRoundLast hp | finRoundLast hp => exact hinv.round_move _ (by simp [hp]) ⟨by simp, by simp⟩
  | initWhiten hp =>
    have hpass := hpass (by rw [hp]; decide)
    exact (hpass.absorb _ _ _ hadpos hamult).inv_of_adDispatch rfl
  | adFull hp =>
    obtain ⟨hle, hmult⟩ := position_after_block (hadFull hp) hamult
    have hpass := hpass (by rw [hp]; decide)
    exact (hpass.absorb _ _ _ hle hmult).inv_of_adDispatch rfl
  | adPart hp =>
    have hpass := hpass (by rw [hp]; decide)
    exact (hpass.absorb _ _ _ le_rfl (.inl rfl)).inv_of_msgDispatch rfl
  | encFull hp _ out hout | decFull hp _ out hout =>
    obtain ⟨hle, hmult⟩ := position_after_block (hfull (by simp [hp])) hmmult
    have hpass := hpass (by rw [hp]; decide)
    exact (hpass.message _ _ _ hle hmult hout).inv_of_msgDispatch rfl
  | encPart hp _ _ _ out hout | decPart hp _ _ _ out hout =>
    have hpass := hpass (by rw [hp]; decide)
    exact (hpass.message _ _ _ le_rfl (.inl rfl) hout).inv_of_msgDispatch (msgDispatch_end _ _).symm
  | tagDerive hp => exact hinv.tagDerive hp _
  | tagWrite hp out hout =>
    exact hinv.tag_move (hout ▸ Memory.wf_write hwf _ _) (.inl hp) (.inl rfl) hdir
  | tagVerifyMatch hp => exact hinv.tag_move hwf (.inr (.inl hp)) (.inl rfl) (by simp)
  | tagVerifyMismatch hp =>
    exact hinv.tag_move hwf (.inr (.inl hp)) (.inr ⟨rfl, rfl⟩) fun _ => hdec (by simp [hp])
  | outWipe hp out hout =>
    exact hinv.tag_move (hout ▸ Memory.wf_wipe hwf _) (.inr (.inr hp)) (.inl rfl) hdir
  | zeroize => exact hinv.zeroized

/-- The invariant says nothing of the two fields that stand for the host. -/
theorem Inv.host_fields {s : State} (h : Inv s) (sc : List HostLine) (rd : Option HostRead) :
    Inv { s with script := sc, readData := rd } :=
  ⟨h.spaces, h.idleClean, h.round, h.positions, h.verdict, h.dispatch, h.status, h.scratch⟩

/-- The core idle, a register write keeps the invariant: the positions that its lengths bound are zero (R28). -/
theorem Inv.writeReg {s : State} (h : Inv s) (hp : s.phase = Phase.idle) (w : RegWrite) : Inv (writeReg w s) := by
  cases w <;> exact Inv.of_idle hp h.spaces h.idleClean h.status

/-- The core idle, a FILL keeps the invariant (R101). -/
theorem Inv.storeBytes {s : State} (h : Inv s) (hp : s.phase = Phase.idle) (sp : Space) (a : Nat) (bs : List Byte) :
    Inv (s.storeBytes sp a bs) := by
  obtain ⟨had, hinp, hout⟩ := h.spaces
  cases sp with
  | ad => exact Inv.of_idle hp ⟨Memory.wf_write had a bs, hinp, hout⟩ h.idleClean h.status
  | inp => exact Inv.of_idle hp ⟨had, Memory.wf_write hinp a bs, hout⟩ h.idleClean h.status
  | out => exact Inv.of_idle hp ⟨had, hinp, Memory.wf_write hout a bs⟩ h.idleClean h.status

/-- The acceptance of ENC or DEC keeps the invariant: the registers it does not load are still erased (R192, R193). -/
theorem Inv.accepted {s : State} (h : Inv s) (hp : s.phase = Phase.idle) (d : Bool) :
    Inv { s with dir := d, done := false, err := 0#2, phase := Phase.initLoad } := by
  obtain ⟨-, hW, hT, hrnd, -, -, hfail⟩ := h.idleClean hp
  refine Inv.of_flight (by dsimp only; decide) h.spaces ?round h.positions ?verdict ?dispatch ⟨rfl, rfl⟩ ?scratch
  case round => simp [RoundCounterOk, hrnd]
  case verdict => simp +decide [VerdictOk, hfail]
  case dispatch => simp +decide [DispatchOk]
  case scratch => simp [ScratchOk, hW, hT]

/-- A reset gives the reset state with the spaces as they were (R250). -/
theorem Inv.resetEvent {s : State} (h : SpacesWf s) : Inv (resetEvent s) :=
  Inv.of_idle rfl h (fun _ => ⟨rfl, rfl, rfl, rfl, rfl, rfl, rfl⟩) (by simp [StatusOk, Machine.resetEvent, State.reset])

/-- An illegal command, the core idle, reports in `STATUS` and keeps the invariant (R222). -/
theorem Inv.illegalCmd {s : State} (h : Inv s) (hp : s.phase = Phase.idle) : Inv (raise .illegalCmd s) :=
  Inv.of_idle hp h.spaces h.idleClean (by simp [StatusOk, raise_illegalCmd_eq, hp])

/-- Every move of the core that the invariant allows for has an answer: its counters and remainders are in range
(R27, R28, R166). -/
theorem Inv.coreStep {s : State} (h : Inv s) : ∃ t, CoreStep s t := by
  obtain ⟨hrnd, -⟩ := h.round
  obtain ⟨hadpos, hmpos, -⟩ := h.positions
  obtain ⟨hadFull, hadPart, hfull, hpart, -⟩ := h.dispatch
  have hadlen := s.adlen.isLt
  have hmlen := s.mlen.isLt
  obtain hp | hp | hp | hp | hp | hp | hp | hp | hp | hp | hp | hp | hp | hp | hp | hp := phase_cases s.phase
  case _ => exact ⟨_, .idle hp⟩
  case _ => exact ⟨_, .initLoad hp⟩
  case _ =>
    by_cases hr : s.rnd = 15#5
    · exact ⟨_, .initRoundLast hp hr⟩
    · exact ⟨_, .initRound hp hr (by omega)⟩
  case _ => exact ⟨_, .initWhiten hp⟩
  case _ => exact ⟨_, .adFull hp ((hadFull hp).trans_lt hadlen)⟩
  case _ =>
    obtain ⟨hlt, hlt32⟩ := hadPart hp
    exact ⟨_, .adPart hp _ (Nat.add_sub_cancel' hadpos) (by omega)⟩
  case _ => exact ⟨_, .encFull hp ((hfull (.inl hp)).trans_lt hmlen) _ rfl⟩
  case _ =>
    obtain ⟨hlt, hlt32⟩ := hpart (.inl hp)
    exact ⟨_, .encPart hp _ (Nat.add_sub_cancel' hmpos) (by omega) _ rfl⟩
  case _ => exact ⟨_, .decFull hp ((hfull (.inr hp)).trans_lt hmlen) _ rfl⟩
  case _ =>
    obtain ⟨hlt, hlt32⟩ := hpart (.inr hp)
    exact ⟨_, .decPart hp _ (Nat.add_sub_cancel' hmpos) (by omega) _ rfl⟩
  case _ =>
    by_cases hr : s.rnd = 15#5
    · exact ⟨_, .finRoundLast hp hr⟩
    · exact ⟨_, .finRound hp hr (by omega)⟩
  case _ => exact ⟨_, .tagDerive hp⟩
  case _ => exact ⟨_, .tagWrite hp _ rfl⟩
  case _ =>
    cases hv : s.verdict with
    | true => exact ⟨_, .tagVerifyMatch hp hv⟩
    | false => exact ⟨_, .tagVerifyMismatch hp hv⟩
  case _ => exact ⟨_, .outWipe hp _ rfl⟩
  case _ => exact ⟨_, .zeroize hp⟩

/-- Every command answers a next state (R191 to R193). -/
theorem exec_command_next {c : BitVec 8} {i : Instr} (hdec : decodeCmd c = .ok i) (s : State) :
    ∃ t, exec i s = .next t := by
  obtain ⟨-, rfl⟩ | ⟨-, rfl⟩ | ⟨-, rfl⟩ := decodeCmd_ok hdec
  · exact ⟨_, exec_nop s⟩
  · exact ⟨_, exec_enc s⟩
  · exact ⟨_, exec_dec s⟩

/-- Every register write answers a next state, in any phase (R30, R36, R94). -/
theorem step_wr_next {s : State} {w : RegWrite} {rest : List HostLine} (hs : s.script = .wr w :: rest) :
    ∃ t, step s = .next t := by
  by_cases hp : s.phase = Phase.idle
  case neg => exact ⟨_, step_wr_of_busy hp hs⟩
  case pos =>
    cases w with
    | cmd c =>
      cases hdec : decodeCmd c with
      | ok i => rw [step_cmd_of_decode_ok hp hs hdec]; exact exec_command_next hdec _
      | error e => exact ⟨_, step_cmd_of_decode_error hp hs hdec⟩
    | status v | adlen v | mlen v | nonce v | key v => exact ⟨_, step_wr_of_idle hp (by simp [RegWrite.reg]) hs⟩

/-- Where the core's move has an answer, a step has one, but for the two host lines that R74 forbids. -/
theorem step_next_or_refused {s : State} (hcore : ∀ sc, ∃ t, CoreStep { s with script := sc } t) :
    (∃ t, step s = .next t) ∨ (step s = .refused .spaceOwnedByCore ∧ s.phase ≠ Phase.idle ∧
      ∃ rest, (∃ sp a bs, s.script = .fill sp a bs :: rest) ∨ (∃ a n, s.script = .dump a n :: rest)) := by
  have hmove : ∀ sc, ∃ t, exec (decodeUop s.phase) { s with script := sc } = .next t := fun sc =>
    (hcore sc).imp fun _ h => exec_of_coreStep h
  obtain hs | ⟨line, rest, hs⟩ : s.script = [] ∨ ∃ line rest, s.script = line :: rest := by
    cases s.script <;> simp
  · exact .inl (step_core hs ▸ hmove s.script)
  · cases line with
    | wr w => exact .inl (step_wr_next hs)
    | rd r => exact .inl ⟨_, step_rd hs⟩
    | reset => exact .inl ⟨_, step_reset hs⟩
    | core n =>
      cases n with
      | zero => exact .inl ⟨_, step_core_zero hs⟩
      | succ n => exact .inl (step_core_succ hs ▸ hmove _)
    | wait =>
      by_cases hp : s.phase = Phase.idle
      · exact .inl ⟨_, step_wait_of_idle hp hs⟩
      · exact .inl (step_wait_of_busy hp hs ▸ hmove s.script)
    | fill sp a bs =>
      by_cases hp : s.phase = Phase.idle
      · exact .inl ⟨_, step_fill_of_idle hp hs⟩
      · exact .inr ⟨step_fill_of_busy hp hs, hp, rest, .inl ⟨sp, a, bs, hs⟩⟩
    | dump a n =>
      by_cases hp : s.phase = Phase.idle
      · exact .inl ⟨_, step_dump_of_idle hp hs⟩
      · exact .inr ⟨step_dump_of_busy hp hs, hp, rest, .inr ⟨a, n, hs⟩⟩

-- the statements

/-- Settles O51: the core's moves by `CoreStep.keeps_inv`, each of the host's by its own lemma. -/
theorem everyStepKeepsTheInvariant : Obligations.EveryStepKeepsTheInvariant := by
  intro s t h hstep
  have hhost : ∀ sc, Inv { s with script := sc } := fun sc => h.host_fields sc s.readData
  obtain ⟨sc, hcore⟩ | ⟨rest, -, rfl⟩ | ⟨hp, c, d, rest, -, -, rfl⟩ | ⟨hp, rest, rfl⟩ | ⟨hp, w, rest, rfl⟩ |
    ⟨hp, sp, a, bs, rest, rfl⟩ | ⟨sc, rd, rfl⟩ := step_next_cases hstep
  case _ => exact hcore.keeps_inv (hhost sc)
  case _ => exact Inv.resetEvent h.spaces
  case _ => exact (hhost rest).accepted hp d
  case _ => exact (hhost rest).illegalCmd hp
  case _ => exact (hhost rest).writeReg hp w
  case _ => exact (hhost rest).storeBytes hp sp a bs
  case _ => exact h.host_fields sc rd

/-- Settles O52: the core's move has an answer, so a step that has none is one of the two forbidden host lines. -/
theorem noStepFaultsUnderTheInvariant : Obligations.NoStepFaultsUnderTheInvariant := by
  intro s h
  have hcore : ∀ sc, ∃ t, CoreStep { s with script := sc } t := fun sc =>
    (h.host_fields sc s.readData).coreStep
  obtain ⟨t, hnext⟩ | ⟨hrefused, hforbidden⟩ := step_next_or_refused hcore
  · rw [hnext]
    exact ⟨fun _ => (nomatch ·), fun _ => (nomatch ·)⟩
  · rw [hrefused]
    exact ⟨fun _ => (nomatch ·), fun _ _ => hforbidden⟩

/-- Settles O50: after reset the core is idle, its registers are erased and the spaces list nothing. -/
theorem resetMeetsTheInvariant : Obligations.ResetMeetsTheInvariant :=
  Inv.of_idle rfl ⟨Memory.wf_nil, Memory.wf_nil, Memory.wf_nil⟩ (fun _ => ⟨rfl, rfl, rfl, rfl, rfl, rfl, rfl⟩)
    (by simp [StatusOk, State.reset])

end Sys2Proof.Machine

/-! PROOFS of the statements about what a move of the core reads and writes (20_memory.md R62, R72;
47_commands_and_sequencer.md R199): which bytes of `OUT` it writes, that it reads none of them, which bytes of `AD` and
`IN` it reads, and that its control flow is public. Each compares a move with that of another state; since the core is
deterministic it is enough to find a move of the other state, one constructor of `CoreStep` for each. -/

namespace Sys2Proof.Machine

-- the bytes a move writes to `OUT`

/-- The micro-operations that write to `OUT` (R152, R154, R162, R164, R176, R184). -/
def writerPhases : List Phase :=
  [Phase.encFull, Phase.encPart, Phase.decFull, Phase.decPart, Phase.tagWrite, Phase.outWipe]

theorem not_writesOut {s : State} (hp : s.phase ∉ writerPhases) (a : Nat) : ¬ WritesOut s a := by
  simp only [writerPhases, List.mem_cons, List.not_mem_nil, or_false, not_or] at hp
  simp [WritesOut, hp]

theorem writesOut_full {s : State} (hp : s.phase = Phase.encFull ∨ s.phase = Phase.decFull) (a : Nat) :
    WritesOut s a ↔ s.mpos.toNat ≤ a ∧ a < s.mpos.toNat + 32 := by
  obtain hp | hp := hp <;> simp +decide [WritesOut, hp]

theorem writesOut_part {s : State} {n : Nat} (hp : s.phase = Phase.encPart ∨ s.phase = Phase.decPart)
    (hn : s.mpos.toNat + n = s.mlen.toNat) (a : Nat) :
    WritesOut s a ↔ s.mpos.toNat ≤ a ∧ a < s.mpos.toNat + n := by
  rw [hn]
  obtain hp | hp := hp <;> simp +decide [WritesOut, hp]

theorem writesOut_tagWrite {s : State} (hp : s.phase = Phase.tagWrite) (a : Nat) :
    WritesOut s a ↔ s.mlen.toNat ≤ a ∧ a < s.mlen.toNat + 32 := by
  simp +decide [WritesOut, hp]

theorem writesOut_outWipe {s : State} (hp : s.phase = Phase.outWipe) (a : Nat) :
    WritesOut s a ↔ a < s.mlen.toNat := by
  simp +decide [WritesOut, hp]

-- `OUT` is not read

/-- A move from `s` to `t`, and the same move from `m` to `out` in place of `OUT`: the bytes written are the same, every
other byte is the one that stood there (R62). -/
def OutAgrees (s t : State) (m out : Memory) : Prop :=
  (∀ a, WritesOut s a → out.get a = t.out.get a) ∧
    ∀ a, ¬ WritesOut s a → out.get a = m.get a ∧ t.out.get a = s.out.get a

theorem OutAgrees.of_quiet {s t : State} {m : Memory} (hp : s.phase ∉ writerPhases) (ht : t.out = s.out) :
    OutAgrees s t m m :=
  ⟨fun a hw => absurd hw (not_writesOut hp a), fun _ _ => ⟨rfl, by rw [ht]⟩⟩

theorem OutAgrees.of_range {s t : State} {m out : Memory} {P : Nat → Prop} (hrange : ∀ a, WritesOut s a ↔ P a)
    (hin : ∀ a, P a → out.get a = t.out.get a) (hoff : ∀ a, ¬ P a → out.get a = m.get a ∧ t.out.get a = s.out.get a) :
    OutAgrees s t m out :=
  ⟨fun a hw => hin a ((hrange a).1 hw), fun a hw => hoff a (mt (hrange a).2 hw)⟩

/-- OUT_WIPE on two spaces: the bytes erased agree, every other byte is the one each space held (R184). -/
theorem Memory.wipe_agree {m m' out out' : Memory} (hm : m.wf) (hm' : m'.wf) {n : Nat} (ho : out = m.wipe n)
    (ho' : out' = m'.wipe n) : (∀ b, b < n → out'.get b = out.get b) ∧
      ∀ b, ¬ b < n → out'.get b = m'.get b ∧ out.get b = m.get b := by
  subst ho ho'
  simp only [Memory.get_wipe hm, Memory.get_wipe hm']
  exact ⟨fun b hb => by rw [if_pos hb, if_pos hb], fun b hb => ⟨if_neg hb, if_neg hb⟩⟩

/-- Each move is a move whatever `OUT` held before (R62). -/
theorem CoreStep.out_independent {s t : State} {m : Memory} (h : CoreStep s t) (hwf : s.out.wf) (hm : m.wf) :
    ∃ out, CoreStep { s with out := m } { t with out := out } ∧ OutAgrees s t m out := by
  cases h with
  | idle hp => exact ⟨m, @CoreStep.idle { s with out := m } hp, .of_quiet (by rw [hp]; decide) rfl⟩
  | initLoad hp => exact ⟨m, @CoreStep.initLoad { s with out := m } hp, .of_quiet (by rw [hp]; decide) rfl⟩
  | initRound hp hr hroom =>
    exact ⟨m, @CoreStep.initRound { s with out := m } hp hr hroom, .of_quiet (by rw [hp]; decide) rfl⟩
  | initRoundLast hp hr =>
    exact ⟨m, @CoreStep.initRoundLast { s with out := m } hp hr, .of_quiet (by rw [hp]; decide) rfl⟩
  | initWhiten hp => exact ⟨m, @CoreStep.initWhiten { s with out := m } hp, .of_quiet (by rw [hp]; decide) rfl⟩
  | adFull hp hroom => exact ⟨m, @CoreStep.adFull { s with out := m } hp hroom, .of_quiet (by rw [hp]; decide) rfl⟩
  | adPart hp n hn h32 =>
    exact ⟨m, @CoreStep.adPart { s with out := m } hp n hn h32, .of_quiet (by rw [hp]; decide) rfl⟩
  | encFull hp hroom out hout =>
    obtain ⟨out', hout', hin, hoff⟩ := Memory.write_toBytes_agree hwf hm hout
    exact ⟨out', @CoreStep.encFull { s with out := m } hp hroom out' hout',
      .of_range (writesOut_full (.inl hp)) hin hoff⟩
  | encPart hp n hn h32 out hout =>
    obtain ⟨out', hout', hin, hoff⟩ := Memory.write_toBytes_agree hwf hm hout
    exact ⟨out', @CoreStep.encPart { s with out := m } hp n hn h32 out' hout',
      .of_range (writesOut_part (.inl hp) hn) hin hoff⟩
  | decFull hp hroom out hout =>
    obtain ⟨out', hout', hin, hoff⟩ := Memory.write_toBytes_agree hwf hm hout
    exact ⟨out', @CoreStep.decFull { s with out := m } hp hroom out' hout',
      .of_range (writesOut_full (.inr hp)) hin hoff⟩
  | decPart hp n hn h32 out hout =>
    obtain ⟨out', hout', hin, hoff⟩ := Memory.write_toBytes_agree hwf hm hout
    exact ⟨out', @CoreStep.decPart { s with out := m } hp n hn h32 out' hout',
      .of_range (writesOut_part (.inr hp) hn) hin hoff⟩
  | finRound hp hr hroom =>
    exact ⟨m, @CoreStep.finRound { s with out := m } hp hr hroom, .of_quiet (by rw [hp]; decide) rfl⟩
  | finRoundLast hp hr =>
    exact ⟨m, @CoreStep.finRoundLast { s with out := m } hp hr, .of_quiet (by rw [hp]; decide) rfl⟩
  | tagDerive hp => exact ⟨m, @CoreStep.tagDerive { s with out := m } hp, .of_quiet (by rw [hp]; decide) rfl⟩
  | tagWrite hp out hout =>
    obtain ⟨out', hout', hin, hoff⟩ := Memory.write_toBytes_agree hwf hm hout
    exact ⟨out', @CoreStep.tagWrite { s with out := m } hp out' hout', .of_range (writesOut_tagWrite hp) hin hoff⟩
  | tagVerifyMatch hp hv =>
    exact ⟨m, @CoreStep.tagVerifyMatch { s with out := m } hp hv, .of_quiet (by rw [hp]; decide) rfl⟩
  | tagVerifyMismatch hp hv =>
    exact ⟨m, @CoreStep.tagVerifyMismatch { s with out := m } hp hv, .of_quiet (by rw [hp]; decide) rfl⟩
  | outWipe hp out hout =>
    obtain ⟨out', hout'⟩ : ∃ out', out' = m.wipe s.mlen.toNat := ⟨_, rfl⟩
    obtain ⟨hin, hoff⟩ := Memory.wipe_agree hwf hm hout hout'
    exact ⟨out', @CoreStep.outWipe { s with out := m } hp out' hout', .of_range (writesOut_outWipe hp) hin hoff⟩
  | zeroize hp => exact ⟨m, @CoreStep.zeroize { s with out := m } hp, .of_quiet (by rw [hp]; decide) rfl⟩

-- the range of the bytes written

/-- A move leaves every byte of `OUT` that it does not write (R62). -/
theorem CoreStep.out_frame {s t : State} (h : CoreStep s t) (hwf : s.out.wf) {a : Nat} (ha : ¬ WritesOut s a) :
    t.out.get a = s.out.get a := by
  obtain ⟨_, -, -, hoff⟩ := h.out_independent hwf hwf
  obtain ⟨-, hframe⟩ := hoff a ha
  exact hframe

/-- Under the invariant the bytes written lie in the output of the operation: the ciphertext and its tag, or the
plaintext alone (R62). -/
theorem Inv.writesOut_lt {s : State} (h : Inv s) {a : Nat} (ha : WritesOut s a) :
    a < s.mlen.toNat + 32 ∧ (s.dir = true → a < s.mlen.toNat) := by
  obtain ⟨-, hmpos, -⟩ := h.positions
  obtain ⟨-, -, hfull, -, henc, -⟩ := h.dispatch
  obtain ⟨hp, -, hlt⟩ | ⟨-, -, hlt⟩ | ⟨hp, -, hlt⟩ | ⟨-, hlt⟩ := ha
  · have := hfull hp
    exact ⟨by omega, fun _ => by omega⟩
  · exact ⟨by omega, fun _ => hlt⟩
  · have hd := henc (.inr (.inr hp))
    exact ⟨hlt, fun hd' => absurd (hd.symm.trans hd') (by decide)⟩
  · exact ⟨by omega, fun _ => hlt⟩

-- `AD` and `IN` are read below their lengths

/-- Each move is a move whatever `AD` holds at or past `ADLEN`, and `IN` past the input of the operation (R62, R72). -/
theorem CoreStep.input_only {s t : State} {ad inp : Memory} (h : CoreStep s t) (hinv : Inv s)
    (had : ∀ a, a < s.adlen.toNat → ad.get a = s.ad.get a)
    (hinp : ∀ a, a < s.mlen.toNat + (if s.dir then 32 else 0) → inp.get a = s.inp.get a) :
    CoreStep { s with ad := ad, inp := inp } { t with ad := ad, inp := inp } := by
  obtain ⟨hadFull, -, hfull, -, -, hdec⟩ := hinv.dispatch
  have hread : ∀ a n, a + n ≤ s.adlen.toNat → ad.read a n = s.ad.read a n := fun a n hn =>
    Memory.read_congr fun i hi => had _ (by omega)
  have hmessage : ∀ a n, a + n ≤ s.mlen.toNat → inp.read a n = s.inp.read a n := fun a n hn =>
    Memory.read_congr fun i hi => hinp _ (by omega)
  have hverdict : s.phase = Phase.tagVerify → State.verdict { s with ad := ad, inp := inp } = s.verdict := fun hp => by
    have htag : inp.read s.mlen.toNat 32 = s.inp.read s.mlen.toNat 32 :=
      Memory.read_congr fun i hi => hinp _ (by rw [if_pos (hdec (by simp [hp]))]; omega)
    exact congrArg (fun b => equal32 s.T (block b)) htag
  cases h with
  | idle hp => exact @CoreStep.idle { s with ad := ad, inp := inp } hp
  | initLoad hp => exact @CoreStep.initLoad { s with ad := ad, inp := inp } hp
  | initRound hp hr hroom => exact @CoreStep.initRound { s with ad := ad, inp := inp } hp hr hroom
  | initRoundLast hp hr => exact @CoreStep.initRoundLast { s with ad := ad, inp := inp } hp hr
  | initWhiten hp => exact @CoreStep.initWhiten { s with ad := ad, inp := inp } hp
  | adFull hp hroom =>
    rw [← hread _ _ (hadFull hp)]
    exact @CoreStep.adFull { s with ad := ad, inp := inp } hp hroom
  | adPart hp n hn h32 =>
    rw [← hread _ _ hn.le]
    exact @CoreStep.adPart { s with ad := ad, inp := inp } hp n hn h32
  | encFull hp hroom out hout =>
    rw [← hmessage _ _ (hfull (.inl hp))] at hout ⊢
    exact @CoreStep.encFull { s with ad := ad, inp := inp } hp hroom out hout
  | encPart hp n hn h32 out hout =>
    rw [← hmessage _ _ hn.le] at hout ⊢
    exact @CoreStep.encPart { s with ad := ad, inp := inp } hp n hn h32 out hout
  | decFull hp hroom out hout =>
    rw [← hmessage _ _ (hfull (.inr hp))] at hout ⊢
    exact @CoreStep.decFull { s with ad := ad, inp := inp } hp hroom out hout
  | decPart hp n hn h32 out hout =>
    rw [← hmessage _ _ hn.le] at hout ⊢
    exact @CoreStep.decPart { s with ad := ad, inp := inp } hp n hn h32 out hout
  | finRound hp hr hroom => exact @CoreStep.finRound { s with ad := ad, inp := inp } hp hr hroom
  | finRoundLast hp hr => exact @CoreStep.finRoundLast { s with ad := ad, inp := inp } hp hr
  | tagDerive hp => exact @CoreStep.tagDerive { s with ad := ad, inp := inp } hp
  | tagWrite hp out hout => exact @CoreStep.tagWrite { s with ad := ad, inp := inp } hp out hout
  | tagVerifyMatch hp hv => exact @CoreStep.tagVerifyMatch { s with ad := ad, inp := inp } hp ((hverdict hp).trans hv)
  | tagVerifyMismatch hp hv =>
    exact @CoreStep.tagVerifyMismatch { s with ad := ad, inp := inp } hp ((hverdict hp).trans hv)
  | outWipe hp out hout => exact @CoreStep.outWipe { s with ad := ad, inp := inp } hp out hout
  | zeroize hp => exact @CoreStep.zeroize { s with ad := ad, inp := inp } hp

-- the control flow

/-- A state with the same public control makes a move to the same public control, at TAG_VERIFY on the same verdict
(R199). -/
theorem CoreStep.public_control {s t u : State} (h : CoreStep s t) (hpublic : SamePublicControl s u)
    (hverdict : s.phase = Phase.tagVerify → s.verdict = u.verdict) :
    ∃ v, CoreStep u v ∧ SamePublicControl t v := by
  obtain ⟨hphase, hrnd, hdir, hadlen, hadpos, hmlen, hmpos⟩ := hpublic
  cases h with
  | idle hp => exact ⟨_, .idle (hphase ▸ hp), hphase, hrnd, hdir, hadlen, hadpos, hmlen, hmpos⟩
  | initLoad hp => exact ⟨_, .initLoad (hphase ▸ hp), by simp [SamePublicControl, *]⟩
  | initRound hp hr hroom =>
    exact ⟨_, .initRound (hphase ▸ hp) (hrnd ▸ hr) (hrnd ▸ hroom), by simp [SamePublicControl, *]⟩
  | initRoundLast hp hr => exact ⟨_, .initRoundLast (hphase ▸ hp) (hrnd ▸ hr), by simp [SamePublicControl, *]⟩
  | initWhiten hp => exact ⟨_, .initWhiten (hphase ▸ hp), by simp [SamePublicControl, *]⟩
  | adFull hp hroom => exact ⟨_, .adFull (hphase ▸ hp) (hadpos ▸ hroom), by simp [SamePublicControl, *]⟩
  | adPart hp n hn h32 =>
    exact ⟨_, .adPart (hphase ▸ hp) n (by rw [← hadpos, ← hadlen, hn]) h32, by simp [SamePublicControl, *]⟩
  | encFull hp hroom => exact ⟨_, .encFull (hphase ▸ hp) (hmpos ▸ hroom) _ rfl, by simp [SamePublicControl, *]⟩
  | encPart hp n hn h32 =>
    exact ⟨_, .encPart (hphase ▸ hp) n (by rw [← hmpos, ← hmlen, hn]) h32 _ rfl, by simp [SamePublicControl, *]⟩
  | decFull hp hroom => exact ⟨_, .decFull (hphase ▸ hp) (hmpos ▸ hroom) _ rfl, by simp [SamePublicControl, *]⟩
  | decPart hp n hn h32 =>
    exact ⟨_, .decPart (hphase ▸ hp) n (by rw [← hmpos, ← hmlen, hn]) h32 _ rfl, by simp [SamePublicControl, *]⟩
  | finRound hp hr hroom =>
    exact ⟨_, .finRound (hphase ▸ hp) (hrnd ▸ hr) (hrnd ▸ hroom), by simp [SamePublicControl, *]⟩
  | finRoundLast hp hr => exact ⟨_, .finRoundLast (hphase ▸ hp) (hrnd ▸ hr), by simp [SamePublicControl, *]⟩
  | tagDerive hp => exact ⟨_, .tagDerive (hphase ▸ hp), by simp [SamePublicControl, *]⟩
  | tagWrite hp => exact ⟨_, .tagWrite (hphase ▸ hp) _ rfl, by simp [SamePublicControl, *]⟩
  | tagVerifyMatch hp hv =>
    exact ⟨_, .tagVerifyMatch (hphase ▸ hp) ((hverdict hp).symm.trans hv), by simp [SamePublicControl, *]⟩
  | tagVerifyMismatch hp hv =>
    exact ⟨_, .tagVerifyMismatch (hphase ▸ hp) ((hverdict hp).symm.trans hv), by simp [SamePublicControl, *]⟩
  | outWipe hp => exact ⟨_, .outWipe (hphase ▸ hp) _ rfl, by simp [SamePublicControl, *]⟩
  | zeroize hp => exact ⟨_, .zeroize (hphase ▸ hp), by simp [SamePublicControl, *]⟩

/-- The core is deterministic. -/
theorem CoreStep.unique {s t t' : State} (h : CoreStep s t) (h' : CoreStep s t') : t = t' :=
  Host.Outcome.next.inj ((exec_of_coreStep h).symm.trans (exec_of_coreStep h'))

-- the statements

/-- Settles O56: the other state's move to the same public control is its step. -/
theorem controlFlowIsPublic : Obligations.ControlFlowIsPublic := by
  intro s u t v hs hu hpublic hverdict hst huv
  obtain ⟨v', hmove, hsame⟩ := ((step_iff_coreStep hs).1 hst).public_control hpublic hverdict
  rwa [((step_iff_coreStep hu).1 huv).unique hmove]

/-- Settles O58: no micro-operation writes an operand, and what it writes of `OUT` lies in the output. -/
theorem coreWritesOnlyItsOutput : Obligations.CoreWritesOnlyItsOutput := by
  intro s t h hs hstep
  have hmove := (step_iff_coreStep hs).1 hstep
  obtain ⟨-, -, hwf⟩ := h.spaces
  obtain ⟨hkey, hnonce, hadlen, hmlen, had, hinp, -, -⟩ := exec_operands (exec_of_coreStep hmove)
  refine ⟨had, hinp, hkey, hnonce, hadlen, hmlen, fun a ha => hmove.out_frame hwf fun hw => ?range,
    fun hd a ha => hmove.out_frame hwf fun hw => ?plaintext⟩
  case range => obtain ⟨hlt, -⟩ := h.writesOut_lt hw; omega
  case plaintext => obtain ⟨-, hlt⟩ := h.writesOut_lt hw; have := hlt hd; omega

/-- Settles O59: the move whatever `OUT` held is the step. -/
theorem coreNeverReadsOut : Obligations.CoreNeverReadsOut := by
  intro s t m hs hwf hm hstep
  obtain ⟨out, hmove, hwritten, hoff⟩ := ((step_iff_coreStep hs).1 hstep).out_independent hwf hm
  exact ⟨out, (@step_iff_coreStep { s with out := m } _ hs).2 hmove, hwritten, hoff⟩

/-- Settles O60: the move whatever the two spaces hold outside the input is the step. -/
theorem coreReadsOnlyItsInput : Obligations.CoreReadsOnlyItsInput := by
  intro s t ad inp h hs hstep had hinp
  exact (@step_iff_coreStep { s with ad := ad, inp := inp } _ hs).2
    (((step_iff_coreStep hs).1 hstep).input_only h had hinp)

end Sys2Proof.Machine
